-- ==== Sys2Proof/Word.lean ====
section
/-! DEFINITION. The two word types of the CORE (00_scope.md R6): the 24-bit word of instructions, memory and the
accumulator, and the 12-bit word of addresses, operands and index registers. -/

namespace Sys2Proof

/-- A "24-bit unit of memory/instruction storage" (R13); also the accumulator (R21). -/
abbrev Word := BitVec 24

/-- A 12-bit word: an address 0..4095, the operand field, an index register's contents (R6, R23, R82). -/
abbrev Addr := BitVec 12

end Sys2Proof
end

