-- ==== Sys2Proof/Config.lean ====
section
/-! DEFINITION. The named parameters of the CORE (00_scope.md R7): the types of `OPTABLE`, `EA_MOD`, `MEMVAL` and
`PC_WRAP`, and the record that holds one value of each. The default values stand in Decode.lean, beside the decoder that
reads `OPTABLE`. The spec leaves no result undefined, so there is no free value here. -/

namespace Sys2Proof

/-- The 22 mnemonics of the opcode table (R86). "undefined" is no mnemonic: a cell without one is `none`. -/
inductive Mnemonic where
  | halt | nop
  | ld | st | em | ldx | stx | emx
  | add | sub | clr | com | and | or | xor | addx | subx | clrx
  | j | jz | jn | jp
  deriving DecidableEq, Repr

/-- One filled cell of `OPTABLE`: column `cat`, row `op`, and the mnemonic in it (R86). -/
structure OpRow where
  cat : BitVec 2
  op : BitVec 4
  mnemonic : Mnemonic
  deriving DecidableEq, Repr

/-- `OPTABLE`, "a partial map from (category 0..3, operation 0..15) to mnemonic" (R7), as the list of its filled cells. -/
abbrev OpTable := List OpRow

/-- `EA_MOD`, the modulus of the INDEXED and INDEXED_INDIRECT address sum (R7, R112). -/
inductive EaMod where
  | mod4096 | mod4095
  deriving DecidableEq, Repr

/-- `MEMVAL`, which part of a memory word an arithmetic operand takes (R7, R118). -/
inductive MemVal where
  | low12 | high12 | full24
  deriving DecidableEq, Repr

/-- `PC_WRAP`, what the program-counter advance from 4095 does (R7, R133). -/
inductive PcWrap where
  | wrap | fault
  deriving DecidableEq, Repr

/-- One value of each named parameter (R7). -/
structure Config where
  opTable : OpTable
  eaMod : EaMod
  memVal : MemVal
  pcWrap : PcWrap
  deriving DecidableEq, Repr

end Sys2Proof
end

