-- ==== Sys2Proof/Syntax.lean ====
section
/-! DEFINITION. The instructions of the CORE as decoded: one constructor per row of spec/opcode_table.json, each with the
operand form its word carries (30_encoding.md R81 to R86). -/

namespace Sys2Proof

/-- The index registers, "{0→X0,1→X1,2→X2,3→X3}" (R85). -/
inductive XReg where
  | x0 | x1 | x2 | x3
  deriving DecidableEq, Repr

/-- The addressing modes (R84). ILLEGAL carries the unmapped selector it came from, so that no bit of the word is lost; the
machine never looks at it. -/
inductive Mode where
  | direct | immediate | indexed | indirect | indexedIndirect
  | illegal (sel : BitVec 4)
  deriving DecidableEq, Repr

/-- What every instruction word carries beside its opcode: the operand, the addressing mode and the index register `xsel`
names, which is both the index of the indexed modes and the register LDX, STX, EMX, ADDX, SUBX and CLRX operate on (R85). -/
structure Form where
  opnd : Addr
  mode : Mode
  xsel : XReg
  deriving DecidableEq, Repr

/-- An instruction: a mnemonic of the opcode table with its form. -/
inductive Instr where
  | halt (f : Form)
  | nop (f : Form)
  | ld (f : Form)
  | st (f : Form)
  | em (f : Form)
  | ldx (f : Form)
  | stx (f : Form)
  | emx (f : Form)
  | add (f : Form)
  | sub (f : Form)
  | clr (f : Form)
  | com (f : Form)
  | and (f : Form)
  | or (f : Form)
  | xor (f : Form)
  | addx (f : Form)
  | subx (f : Form)
  | clrx (f : Form)
  | j (f : Form)
  | jz (f : Form)
  | jn (f : Form)
  | jp (f : Form)
  deriving DecidableEq, Repr

/-- The mnemonic of an instruction. -/
def Instr.mnemonic : Instr → Mnemonic
  | .halt _ => .halt | .nop _ => .nop
  | .ld _ => .ld | .st _ => .st | .em _ => .em
  | .ldx _ => .ldx | .stx _ => .stx | .emx _ => .emx
  | .add _ => .add | .sub _ => .sub | .clr _ => .clr | .com _ => .com
  | .and _ => .and | .or _ => .or | .xor _ => .xor
  | .addx _ => .addx | .subx _ => .subx | .clrx _ => .clrx
  | .j _ => .j | .jz _ => .jz | .jn _ => .jn | .jp _ => .jp

/-- The form of an instruction. -/
def Instr.form : Instr → Form
  | .halt f | .nop f
  | .ld f | .st f | .em f | .ldx f | .stx f | .emx f
  | .add f | .sub f | .clr f | .com f | .and f | .or f | .xor f | .addx f | .subx f | .clrx f
  | .j f | .jz f | .jn f | .jp f => f

end Sys2Proof
end

