-- ==== Sys2Proof/WellFormed.lean ====
section
/-! DEFINITION. Which instructions and which opcode tables are well-formed. An instruction in a mode its mnemonic rejects is
well-formed: executing it is a defined halt (41_sequencer.md R136), not a syntax error. -/

namespace Sys2Proof

/-- ILLEGAL carries a selector that is in fact unmapped: not one of 0000, 0001, 0010, 0100, 0110 (R84). -/
def Mode.wf : Mode → Bool
  | .illegal sel => !([0x0#4, 0x1#4, 0x2#4, 0x4#4, 0x6#4].contains sel)
  | _ => true

/-- A form is well-formed when its mode is; every operand and every index select is valid (R85, R90). -/
def Form.wf (f : Form) : Bool := f.mode.wf

/-- An instruction is well-formed when its form is. -/
def Instr.wf (i : Instr) : Bool := i.form.wf

/-- `OPTABLE` is a map: no cell is filled twice (R7, R83). -/
def OpTable.wf : OpTable → Bool
  | [] => true
  | r :: t => t.all (fun q => !(q.cat == r.cat && q.op == r.op)) && OpTable.wf t

/-- The parameters are well-formed when the opcode table is a map. -/
def Config.wf (c : Config) : Bool := OpTable.wf c.opTable

end Sys2Proof
end

