-- ==== Sys2Proof/Decode.lean ====
section
/-! DEFINITION. The word's fields, the opcode and selector tables with their default values, the decoder, total on every
24-bit word and rejecting an undefined opcode by name, and after it the encoder (30_encoding.md R81 to R97). -/

namespace Sys2Proof

/-- `opnd = w[23:12]`, the top 12 bits of a word: the operand of an instruction (R81, R82), the address in a pointer word
(R113) and the part an index-register load takes (R119). -/
def opndOf (w : Word) : Addr := w.extractLsb' 12 12

/-- `cat = w[11:10]` (R81). -/
def catOf (w : Word) : BitVec 2 := w.extractLsb' 10 2

/-- `op = w[9:6]` (R81). -/
def opOf (w : Word) : BitVec 4 := w.extractLsb' 6 4

/-- `sel = w[5:2]` (R81). -/
def selOf (w : Word) : BitVec 4 := w.extractLsb' 2 4

/-- `xsel = w[1:0]` (R81). -/
def xselOf (w : Word) : BitVec 2 := w.extractLsb' 0 2

/-- The mode a selector maps to (R84). -/
def modeOfSel (sel : BitVec 4) : Mode :=
  match sel.toNat with
  | 0b0000 => .direct
  | 0b0001 => .immediate
  | 0b0010 => .indexed
  | 0b0100 => .indirect
  | 0b0110 => .indexedIndirect
  | _ => .illegal sel

/-- The index register an index select names (R85). -/
def xregOfSel (xsel : BitVec 2) : XReg :=
  match xsel.toNat with
  | 0 => .x0
  | 1 => .x1
  | 2 => .x2
  | _ => .x3

/-- The operand form a word carries (R81, R84, R85). -/
def formOf (w : Word) : Form :=
  { opnd := opndOf w, mode := modeOfSel (selOf w), xsel := xregOfSel (xselOf w) }

/-- The default value of `OPTABLE`: the 22 filled cells of the 16×4 table (R86), column by column. -/
def OpTable.standard : OpTable :=
  [⟨0, 0, .halt⟩, ⟨0, 1, .nop⟩] ++
  [⟨1, 0, .ld⟩, ⟨1, 1, .st⟩, ⟨1, 2, .em⟩, ⟨1, 8, .ldx⟩, ⟨1, 9, .stx⟩, ⟨1, 10, .emx⟩] ++
  [⟨2, 0, .add⟩, ⟨2, 1, .sub⟩, ⟨2, 2, .clr⟩, ⟨2, 3, .com⟩, ⟨2, 4, .and⟩, ⟨2, 5, .or⟩, ⟨2, 6, .xor⟩,
   ⟨2, 8, .addx⟩, ⟨2, 9, .subx⟩, ⟨2, 10, .clrx⟩] ++
  [⟨3, 0, .j⟩, ⟨3, 1, .jz⟩, ⟨3, 2, .jn⟩, ⟨3, 3, .jp⟩]

/-- The default value of every named parameter (R7). -/
def Config.default : Config :=
  { opTable := OpTable.standard, eaMod := .mod4096, memVal := .low12, pcWrap := .wrap }

/-- The mnemonic in a cell of the opcode table, `none` for an empty cell (R83, R91). -/
def OpTable.lookup : OpTable → BitVec 2 → BitVec 4 → Option Mnemonic
  | [], _, _ => none
  | r :: t, cat, op => if r.cat = cat ∧ r.op = op then some r.mnemonic else OpTable.lookup t cat op

/-- The instruction a mnemonic and a form make. -/
def Instr.make (m : Mnemonic) (f : Form) : Instr :=
  match m with
  | .halt => .halt f
  | .nop => .nop f
  | .ld => .ld f
  | .st => .st f
  | .em => .em f
  | .ldx => .ldx f
  | .stx => .stx f
  | .emx => .emx f
  | .add => .add f
  | .sub => .sub f
  | .clr => .clr f
  | .com => .com f
  | .and => .and f
  | .or => .or f
  | .xor => .xor f
  | .addx => .addx f
  | .subx => .subx f
  | .clrx => .clrx f
  | .j => .j f
  | .jz => .jz f
  | .jn => .jn f
  | .jp => .jp f

/-- What the decoder answers: an instruction, or the rejection of an undefined opcode by its category and operation. -/
inductive Decoded where
  | instr (i : Instr)
  | undefinedOpcode (cat : BitVec 2) (op : BitVec 4)
  deriving DecidableEq, Repr

/-- The decoder (R83, R91, R96): "(category, operation) jointly index a fixed 16×4 mnemonic table". An illegal selector is no
rejection: the instruction is decoded with mode ILLEGAL, and executing it halts (R92). -/
def decode (t : OpTable) (w : Word) : Decoded :=
  match t.lookup (catOf w) (opOf w) with
  | some m => .instr (Instr.make m (formOf w))
  | none => .undefinedOpcode (catOf w) (opOf w)

/-- The selector of a mode: R84 read backwards. -/
def Mode.sel : Mode → BitVec 4
  | .direct => 0b0000
  | .immediate => 0b0001
  | .indexed => 0b0010
  | .indirect => 0b0100
  | .indexedIndirect => 0b0110
  | .illegal sel => sel

/-- The index select of an index register (R85). -/
def XReg.sel : XReg → BitVec 2
  | .x0 => 0
  | .x1 => 1
  | .x2 => 2
  | .x3 => 3

/-- The word with the given opcode and form, "w = (opnd << 12) | (cat << 10) | (op << 6) | (sel << 2) | xsel" (R97). -/
def assemble (cat : BitVec 2) (op : BitVec 4) (f : Form) : Word :=
  f.opnd ++ cat ++ op ++ f.mode.sel ++ f.xsel.sel

/-- The first cell of the opcode table that holds a mnemonic, as its category and operation. -/
def OpTable.cellOf : OpTable → Mnemonic → Option (BitVec 2 × BitVec 4)
  | [], _ => none
  | r :: t, m => if r.mnemonic = m then some (r.cat, r.op) else OpTable.cellOf t m

/-- The encoder under any opcode table: `none` where the table has no cell for the mnemonic. -/
def encodeIn (t : OpTable) (i : Instr) : Option Word :=
  match t.cellOf i.mnemonic with
  | some c => some (assemble c.1 c.2 i.form)
  | none => none

/-- The 6-bit opcode `{cat, op}` of a mnemonic in the default table (R87). -/
def Mnemonic.opcode : Mnemonic → BitVec 6
  | .halt => 0x00 | .nop => 0x01
  | .ld => 0x10 | .st => 0x11 | .em => 0x12 | .ldx => 0x18 | .stx => 0x19 | .emx => 0x1A
  | .add => 0x20 | .sub => 0x21 | .clr => 0x22 | .com => 0x23 | .and => 0x24 | .or => 0x25 | .xor => 0x26
  | .addx => 0x28 | .subx => 0x29 | .clrx => 0x2A
  | .j => 0x30 | .jz => 0x31 | .jn => 0x32 | .jp => 0x33

/-- The encoder under the default opcode table (R87, R97). -/
def encode (i : Instr) : Word :=
  assemble (i.mnemonic.opcode.extractLsb' 4 2) (i.mnemonic.opcode.extractLsb' 0 4) i.form

/-- The instruction the decoder reads from the word `w`, whose bits are numbered as spec/opcode_table.json numbers them: every
instruction is one 24-bit word and bit 0 is its least significant bit (R8, R80). -/
def decodeTableWord (nbits w : Nat) : Option Instr :=
  match decode OpTable.standard (BitVec.ofNat 24 (w % 2 ^ nbits)) with
  | .instr i => some i
  | .undefinedOpcode _ _ => none

end Sys2Proof
end

