-- ==== Sys2Proof/Machine/State.lean ====
section
/-! DEFINITION. The state of the CORE as plain data (10_state.md), the errors and halt reasons (60_exceptions.md R211), the
trace record (41_sequencer.md R138), the two ways a step of the model can stop, and the state after reset. -/

namespace Sys2Proof.Machine

/-- The three reasons of HALTED (R27, R143). -/
inductive HaltReason where
  /-- "halt instruction executed" -/
  | haltInstruction
  /-- "undefined opcode" -/
  | undefinedOpcode
  /-- "illegal addressing mode" -/
  | illegalAddressingMode
  deriving DecidableEq, Repr

/-- What LoadRefused records: "the line's index or the start address" (R211). -/
inductive RefusedAt where
  | line (index : Nat)
  | start (address : Nat)
  deriving DecidableEq, Repr

/-- The errors, in the order of the table of R211, each with what it records. The record of an engine error is the trace
record of its step. -/
inductive CoreError where
  | formatError (line : Nat)
  | addressOutOfRange (address : Nat)
  | undefinedOpcode
  | illegalAddressingMode
  | loadRefused (site : RefusedAt)
  deriving DecidableEq, Repr

/-- The run state RS (R27). -/
inductive RunState where
  | running
  | halted (reason : HaltReason)
  | faulted (error : CoreError)
  deriving DecidableEq, Repr

/-- The index registers X0..X3, 12 bits each (R23). -/
structure XRegs where
  x0 : Addr
  x1 : Addr
  x2 : Addr
  x3 : Addr
  deriving DecidableEq, Repr

/-- The display of the effective address, a tag and its number (R95). -/
inductive Display where
  | imm (opnd : Addr)
  | blank
  | error
  | addr (ea : Addr)
  deriving DecidableEq, Repr

/-- The register snapshot `{ACC, X0, X1, X2, X3}`; PC is not part of it (R139). -/
structure Snapshot where
  acc : Word
  x : XRegs
  deriving DecidableEq, Repr

/-- One trace record (R138); the mnemonic is `none` for "undefined" (R91). -/
structure TraceRecord where
  addr : Addr
  word : Word
  mnemonic : Option Mnemonic
  display : Display
  regs : Snapshot
  deriving DecidableEq, Repr

/-- The memory M[0..4095] (R29, R40): the words that are not 0, each with its address, addresses strictly rising. An unlisted
address reads 0, since memory is "created zero-filled" (R29). The form is `Memory.wf` of Ops.lean. -/
abbrev Memory := List (Nat × Word)

/-- The state of the CORE (R20): ACC, X0..X3, PC, M and RS. `cfg` and `trace` are the model's own fields: the named
parameters, which no step changes (R7), and the trace records handed to the sink, oldest first (R138). PC has 13 bits, of
which the top one is used only under `PC_WRAP = FAULT` (R20, R25). -/
structure State where
  cfg : Config
  acc : Word
  x : XRegs
  pc : BitVec 13
  mem : Memory
  rs : RunState
  trace : List TraceRecord
  deriving DecidableEq, Repr

/-- Why a step of the model stops without a next state. -/
inductive Fault where
  /-- Raised by `step` from a state whose RS is HALTED or FAULTED, from which "there is no step" (R131): the stuck state of a
  machine that has ended. Safe: no state follows it in the CORE either. -/
  | notRunning
  deriving DecidableEq, Repr

/-- Why the model gives an instruction no meaning. -/
inductive Refusal where
  /-- Raised by an arm of `exec` whose instruction has no meaning yet. No arm does. Safe: the model stops. -/
  | notModelled (mnemonic : String)
  deriving DecidableEq, Repr

/-- The index registers at the start: "X2 initialized to 0xFFF, others to 0" (R23, R32). -/
def XRegs.reset : XRegs := { x0 := 0, x1 := 0, x2 := 0xFFF, x3 := 0 }

/-- The machine right after reset (R32): every register at its start value, memory zero-filled, RS RUNNING, the parameters at
their defaults (R7), no record emitted. PC is the resolved start address of an empty object file without an override, 0 (R62);
`launch` of Loader.lean gives the start state of every other object file. -/
def State.reset : State :=
  { cfg := Config.default, acc := 0, x := XRegs.reset, pc := 0, mem := [], rs := .running, trace := [] }

end Sys2Proof.Machine
end

