-- ==== Sys2Proof/Machine/Ops.lean ====
section
/-! DEFINITION. The named operations over memory, registers, program counter and run state; the legality and halt rules every
instruction shares (41_sequencer.md R133 to R141). The CORE takes no trap (60_exceptions.md R210): what stands here for taking
an exception is the one operation `State.conclude`, the halt check, beside `State.raiseFetchFault`, the fetch fault; there is
no return from either (R219). -/

namespace Sys2Proof.Machine

/-! ### Memory -/

/-- The word at an address; an unlisted address holds 0 (R29). -/
def Memory.read : Memory → Nat → Word
  | [], _ => 0#24
  | (b, v) :: t, a => if b = a then v else Memory.read t a

/-- The memory with `v` at address `a`. Writing 0 removes the entry, so equal memories are equal lists. -/
def Memory.write : Memory → Nat → Word → Memory
  | [], a, v => if v = 0#24 then [] else [(a, v)]
  | (b, u) :: t, a, v =>
    if a < b then (if v = 0#24 then (b, u) :: t else (a, v) :: (b, u) :: t)
    else if a = b then (if v = 0#24 then t else (a, v) :: t)
    else (b, u) :: Memory.write t a v

/-- Addresses strictly rise from `lo` on, all lie in 0..4095, and no listed word is 0. -/
def Memory.wfFrom : Nat → Memory → Bool
  | _, [] => true
  | lo, (a, v) :: t => decide (lo ≤ a) && decide (a ≤ 4095) && decide (v ≠ 0#24) && Memory.wfFrom (a + 1) t

/-- The canonical form of memory. -/
def Memory.wf (m : Memory) : Bool := Memory.wfFrom 0 m

/-- `read(addr)` with the bound check of R42: AddressOutOfRange outside 0..4095. -/
def Memory.readChecked (m : Memory) (a : Nat) : Except CoreError Word :=
  if a ≤ 4095 then .ok (m.read a) else .error (.addressOutOfRange a)

/-- `write(addr, Word)` with the bound check of R42. -/
def Memory.writeChecked (m : Memory) (a : Nat) (v : Word) : Except CoreError Memory :=
  if a ≤ 4095 then .ok (m.write a v) else .error (.addressOutOfRange a)

/-- `MemRead(addr)` for the 12-bit addresses of the engine, for which the bound check cannot fail (R10, R42). -/
def State.memRead (s : State) (a : Addr) : Word := s.mem.read a.toNat

/-- `MemWrite(addr, v)` for the 12-bit addresses of the engine (R10, R42). -/
def State.memWrite (s : State) (a : Addr) (v : Word) : State := { s with mem := s.mem.write a.toNat v }

/-! ### Parts of a word -/

/-- `w[11:0]`. -/
def low12 (w : Word) : Addr := w.extractLsb' 0 12

/-- `w[23:12]`, the field the operand occupies too (R82). -/
def high12 (w : Word) : Addr := opndOf w

/-- The word `(hi << 12) | w[11:0]`: `w` with its high 12 bits replaced (R154). -/
def withHigh12 (hi : Addr) (w : Word) : Word := hi ++ low12 w

/-! ### Registers -/

/-- The index register `X[n]` (R23). -/
def XRegs.get (x : XRegs) : XReg → Addr
  | .x0 => x.x0
  | .x1 => x.x1
  | .x2 => x.x2
  | .x3 => x.x3

/-- The index registers with `X[n]` replaced (R23, R24). -/
def XRegs.set (x : XRegs) (n : XReg) (v : Addr) : XRegs :=
  match n with
  | .x0 => { x with x0 := v }
  | .x1 => { x with x1 := v }
  | .x2 => { x with x2 := v }
  | .x3 => { x with x3 := v }

/-- `ACC <- v`. -/
def State.setAcc (s : State) (v : Word) : State := { s with acc := v }

/-- `X[n] <- v`. -/
def State.setX (s : State) (n : XReg) (v : Addr) : State := { s with x := s.x.set n v }

/-- `PC <- target`, a 12-bit target (R190). -/
def State.setPc (s : State) (target : Addr) : State := { s with pc := target.setWidth 13 }

/-- `Next(pc0)` (R133): `pc0 + 1` modulo 4096 under `WRAP`, unreduced under `FAULT`. -/
def nextPc (w : PcWrap) (pc : BitVec 13) : BitVec 13 :=
  match w with
  | .wrap => BitVec.ofNat 13 ((pc.toNat + 1) % 4096)
  | .fault => pc + 1

/-- The advance of the program counter, made for every fetched word before execution (R133). -/
def State.advance (s : State) : State := { s with pc := nextPc s.cfg.pcWrap s.pc }

/-! ### Errors and halt reasons -/

/-- The reason strings (R143). -/
def HaltReason.text : HaltReason → String
  | .haltInstruction => "halt instruction executed"
  | .undefinedOpcode => "undefined opcode"
  | .illegalAddressingMode => "illegal addressing mode"

/-- The error of the taxonomy a halt reports; a HALT instruction is none (R211, R214, R215). -/
def HaltReason.error : HaltReason → Option CoreError
  | .haltInstruction => none
  | .undefinedOpcode => some .undefinedOpcode
  | .illegalAddressingMode => some .illegalAddressingMode

/-- The code of an error (R211). -/
def CoreError.code : CoreError → Nat
  | .formatError _ => 0
  | .addressOutOfRange _ => 1
  | .undefinedOpcode => 2
  | .illegalAddressingMode => 3
  | .loadRefused _ => 4

/-! ### Legality and the halt check -/

/-- Whether a mode is ILLEGAL (R84). -/
def isIllegalMode : Mode → Bool
  | .illegal _ => true
  | _ => false

/-- `Legal(mnemonic)`, the modes a mnemonic admits (R141). HALT and NOP are classed Ignored before their mode is looked at. -/
def legalFor : Mnemonic → Mode → Bool
  | _, .illegal _ => false
  | .ldx, .direct | .ldx, .immediate => true
  | .ldx, _ => false
  | .stx, .direct | .emx, .direct => true
  | .stx, _ | .emx, _ => false
  | .st, .immediate | .em, .immediate => false
  | .j, .immediate | .jz, .immediate | .jn, .immediate | .jp, .immediate => false
  | _, _ => true

/-- The legality classification of an executed word (R135). -/
inductive Legality where
  | ignored
  | illegal
  | legal
  deriving DecidableEq, Repr

/-- The classification, in the order of R135; `none` is the mnemonic "undefined". -/
def classify (m : Option Mnemonic) (mode : Mode) : Legality :=
  match m with
  | none | some .halt | some .nop => .ignored
  | some m => if legalFor m mode then .legal else .illegal

/-- `HaltCheck(c, cls)`: the next run state, the first condition that applies (R136). -/
def haltCheck (m : Option Mnemonic) (mode : Mode) (cls : Legality) : RunState :=
  if isIllegalMode mode then .halted .illegalAddressingMode
  else if m = some .halt then .halted .haltInstruction
  else if m = none then .halted .undefinedOpcode
  else if cls = .illegal then .halted .illegalAddressingMode
  else .running

/-- The halt check applied: RS becomes what it gives, and nothing else changes (R136, R218). -/
def State.conclude (s : State) (m : Option Mnemonic) (mode : Mode) : State :=
  { s with rs := haltCheck m mode (classify m mode) }

/-- The fetch fault: RS becomes FAULTED(AddressOutOfRange(pc0)), and nothing else changes (R132, R213). -/
def State.raiseFetchFault (s : State) (e : CoreError) : State := { s with rs := .faulted e }

end Sys2Proof.Machine
end

