-- ==== Sys2Proof/Machine/Flags.lean ====
section
/-! DEFINITION. The CORE has no flags (10_state.md R26): what stands here are the tests the conditional jumps make on the
accumulator itself when they execute (R22). -/

namespace Sys2Proof.Machine

/-- `signed24(v)`: "v - 2^24 when v[23] = 1 and v otherwise" (R9). -/
def signed24 (v : Word) : Int := if v.getLsbD 23 then (v.toNat : Int) - 2 ^ 24 else v.toNat

/-- The test of JZ: `ACC = 0` (R22, R194). -/
def isZero (acc : Word) : Bool := acc == 0

/-- The test of JN: `ACC[23] = 1`, "that is signed24(ACC) < 0" (R22, R195). -/
def isNegative (acc : Word) : Bool := acc.getLsbD 23

/-- The test of JP: `ACC[23] = 0`, zero included (R22, R196). -/
def isNonNegative (acc : Word) : Bool := !acc.getLsbD 23

end Sys2Proof.Machine
end

