-- ==== Sys2Proof/Machine/Operands.lean ====
section
/-! DEFINITION. The effective-address resolver and the operand values (40_addressing.md R110 to R119), the Control record with
its display (30_encoding.md R94 to R96), and the operation every meaning is one line over: act when Legal, then the halt check
(41_sequencer.md R134 to R137). -/

namespace Sys2Proof.Machine

/-- The modulus `EA_MOD` as a number (R7). -/
def eaModulus : EaMod → Nat
  | .mod4096 => 4096
  | .mod4095 => 4095

/-- `(opnd + X[xsel]) mod EA_MOD`, the address sum of the indexed modes (R112, R114). -/
def indexedSum (e : EaMod) (opnd x : Addr) : Addr := BitVec.ofNat 12 ((opnd.toNat + x.toNat) % eaModulus e)

/-- `Resolve(opnd, mode, xsel)`: the effective value, `none` for ILLEGAL (R110 to R116). -/
def State.resolve (s : State) (f : Form) : Option Addr :=
  match f.mode with
  | .direct => some f.opnd
  | .immediate => some f.opnd
  | .indexed => some (indexedSum s.cfg.eaMod f.opnd (s.x.get f.xsel))
  | .indirect => some (high12 (s.memRead f.opnd))
  | .indexedIndirect => some (high12 (s.memRead (indexedSum s.cfg.eaMod f.opnd (s.x.get f.xsel))))
  | .illegal _ => none

/-- `Reduce(w)`: the part of a memory word `MEMVAL` selects, zero-extended to 24 bits (R118). -/
def reduceWord (v : MemVal) (w : Word) : Word :=
  match v with
  | .low12 => (low12 w).setWidth 24
  | .high12 => (high12 w).setWidth 24
  | .full24 => w

/-- `Val(c)`, the operand of LD, ADD, SUB, AND, OR, XOR, ADDX and SUBX, given the resolved `ea`, zero-extended (R89, R118). -/
def State.val (s : State) (f : Form) (ea : Addr) : Word :=
  match f.mode with
  | .immediate => f.opnd.setWidth 24
  | _ => reduceWord s.cfg.memVal (s.memRead ea)

/-- `HighVal(c)`, the operand of LDX, given the resolved `ea` (R119). -/
def State.highVal (s : State) (f : Form) (ea : Addr) : Addr :=
  match f.mode with
  | .immediate => f.opnd
  | _ => high12 (s.memRead ea)

/-- The Control record of a fetched word (R94). It lives within one step (R30). -/
structure Control where
  mnemonic : Option Mnemonic
  word : Word
  mode : Mode
  display : Display
  ea : Option Addr
  cat : BitVec 2
  opnd : Addr
  xsel : XReg
  deriving DecidableEq, Repr

/-- The display: the first form of R95 that applies. With a mode that is not ILLEGAL the resolver has a result, so `none` is
the Error form. -/
def displayOf (m : Option Mnemonic) (cat : BitVec 2) (f : Form) (ea : Option Addr) : Display :=
  if f.mode = .immediate then .imm f.opnd
  else if cat = 0 ∨ m = none then .blank
  else match ea with
    | none => .error
    | some a => .addr a

/-- `Decode(w)`: the Control record, resolved against the registers and memory of the state (R96). -/
def State.control (s : State) (w : Word) : Control :=
  let f := formOf w
  let m := OpTable.lookup s.cfg.opTable (catOf w) (opOf w)
  let ea := s.resolve f
  { mnemonic := m, word := w, mode := f.mode, display := displayOf m (catOf w) f ea, ea := ea,
    cat := catOf w, opnd := f.opnd, xsel := f.xsel }

/-- `Execute(c)`: only when the class is Legal, the instruction's own semantics `act`, given the `ea` resolved from the state
before it (R122, R134, R135, R137). -/
def State.perform (s : State) (m : Mnemonic) (f : Form) (act : Addr → State → State) : State :=
  match classify (some m) f.mode, s.resolve f with
  | .legal, some ea => act ea s
  | _, _ => s

/-- Execute an instruction and apply the halt check (R132). -/
def runInstr (m : Mnemonic) (f : Form) (act : Addr → State → State) (s : State) : Host.Outcome State Fault Refusal :=
  .next ((s.perform m f act).conclude (some m) f.mode)

end Sys2Proof.Machine
end

