-- ==== Sys2Proof/Machine/Alu.lean ====
section
/-! DEFINITION. Accumulator and index arithmetic and logic (43_alu.md). Results wrap modulo 2^24 in the accumulator and modulo
4096 in an index register (R170). -/

namespace Sys2Proof.Machine

/-- An accumulator instruction with one operand: `ACC <- op ACC Val(c)`. -/
def runAccOp (m : Mnemonic) (op : Word → Word → Word) (f : Form) (s : State) : Host.Outcome State Fault Refusal :=
  runInstr m f (fun ea s => s.setAcc (op s.acc (s.val f ea))) s

/-- An index instruction with one operand: `X[n] <- (op X[n] Val(c)) mod 4096`, computed on 24 bits, of which the low 12 are
kept. -/
def runIndexOp (m : Mnemonic) (op : Word → Word → Word) (f : Form) (s : State) : Host.Outcome State Fault Refusal :=
  runInstr m f (fun ea s => s.setX f.xsel (low12 (op ((s.x.get f.xsel).setWidth 24) (s.val f ea)))) s

/-- ADD: `ACC <- (ACC + zext_24(Val(c))) mod 2^24` (R171). -/
def execAdd (f : Form) (s : State) : Host.Outcome State Fault Refusal := runAccOp .add (fun a v => a + v) f s

/-- SUB: `ACC <- (ACC - zext_24(Val(c))) mod 2^24` (R172). -/
def execSub (f : Form) (s : State) : Host.Outcome State Fault Refusal := runAccOp .sub (fun a v => a - v) f s

/-- CLR: `ACC <- 0`; the operand is ignored (R173). -/
def execClr (f : Form) (s : State) : Host.Outcome State Fault Refusal := runInstr .clr f (fun _ s => s.setAcc 0) s

/-- COM: `ACC <- ACC XOR 0xFFFFFF`; the operand is ignored (R174). -/
def execCom (f : Form) (s : State) : Host.Outcome State Fault Refusal :=
  runInstr .com f (fun _ s => s.setAcc (s.acc ^^^ 0xFFFFFF)) s

/-- AND: `ACC <- ACC AND zext_24(Val(c))` (R175). -/
def execAnd (f : Form) (s : State) : Host.Outcome State Fault Refusal := runAccOp .and (fun a v => a &&& v) f s

/-- OR: `ACC <- ACC OR zext_24(Val(c))` (R176). -/
def execOr (f : Form) (s : State) : Host.Outcome State Fault Refusal := runAccOp .or (fun a v => a ||| v) f s

/-- XOR: `ACC <- ACC XOR zext_24(Val(c))` (R177). -/
def execXor (f : Form) (s : State) : Host.Outcome State Fault Refusal := runAccOp .xor (fun a v => a ^^^ v) f s

/-- ADDX: `X[n] <- (X[n] + Val(c)) mod 4096` (R178). -/
def execAddx (f : Form) (s : State) : Host.Outcome State Fault Refusal := runIndexOp .addx (fun a v => a + v) f s

/-- SUBX: `X[n] <- (X[n] - Val(c)) mod 4096` (R179). -/
def execSubx (f : Form) (s : State) : Host.Outcome State Fault Refusal := runIndexOp .subx (fun a v => a - v) f s

/-- CLRX: `X[n] <- 0`; the operand is ignored (R180). -/
def execClrx (f : Form) (s : State) : Host.Outcome State Fault Refusal := runInstr .clrx f (fun _ s => s.setX f.xsel 0) s

end Sys2Proof.Machine
end

