-- ==== Sys2Proof/Machine/Control.lean ====
section
/-! DEFINITION. Halt, no-op and control transfer (44_control.md). When one of these runs, PC already holds `Next(pc0)`. -/

namespace Sys2Proof.Machine

/-- A jump taken when `cond` holds of the accumulator: `if cond then PC <- ea` (R190). -/
def runJump (m : Mnemonic) (cond : Word → Bool) (f : Form) (s : State) : Host.Outcome State Fault Refusal :=
  runInstr m f (fun ea s => if cond s.acc then s.setPc ea else s) s

/-- HALT: no register or memory write; the halt check ends the run (R191). -/
def execHalt (f : Form) (s : State) : Host.Outcome State Fault Refusal := runInstr .halt f (fun _ s => s) s

/-- NOP: no register or memory write (R192). -/
def execNop (f : Form) (s : State) : Host.Outcome State Fault Refusal := runInstr .nop f (fun _ s => s) s

/-- J: `PC <- ea` (R193). -/
def execJ (f : Form) (s : State) : Host.Outcome State Fault Refusal := runJump .j (fun _ => true) f s

/-- JZ: `if ACC = 0 then PC <- ea` (R194). -/
def execJz (f : Form) (s : State) : Host.Outcome State Fault Refusal := runJump .jz isZero f s

/-- JN: `if ACC[23] = 1 then PC <- ea` (R195). -/
def execJn (f : Form) (s : State) : Host.Outcome State Fault Refusal := runJump .jn isNegative f s

/-- JP: `if ACC[23] = 0 then PC <- ea` (R196). -/
def execJp (f : Form) (s : State) : Host.Outcome State Fault Refusal := runJump .jp isNonNegative f s

end Sys2Proof.Machine
end

