-- ==== Sys2Proof/Machine/LoadStore.lean ====
section
/-! DEFINITION. Load, store and exchange on the accumulator and on an index register (42_load_store.md). -/

namespace Sys2Proof.Machine

/-- LD: `ACC <- zext_24(Val(c))` (R150). -/
def execLd (f : Form) (s : State) : Host.Outcome State Fault Refusal :=
  runInstr .ld f (fun ea s => s.setAcc (s.val f ea)) s

/-- ST: `MemWrite(ea, ACC)` (R151). -/
def execSt (f : Form) (s : State) : Host.Outcome State Fault Refusal :=
  runInstr .st f (fun ea s => s.memWrite ea s.acc) s

/-- EM: `t <- MemRead(ea); MemWrite(ea, ACC); ACC <- t` (R152). -/
def execEm (f : Form) (s : State) : Host.Outcome State Fault Refusal :=
  runInstr .em f (fun ea s => (s.memWrite ea s.acc).setAcc (s.memRead ea)) s

/-- LDX: `X[n] <- HighVal(c)` (R153). -/
def execLdx (f : Form) (s : State) : Host.Outcome State Fault Refusal :=
  runInstr .ldx f (fun ea s => s.setX f.xsel (s.highVal f ea)) s

/-- STX: `v <- MemRead(ea); MemWrite(ea, (X[n] << 12) | v[11:0])` (R154). -/
def execStx (f : Form) (s : State) : Host.Outcome State Fault Refusal :=
  runInstr .stx f (fun ea s => s.memWrite ea (withHigh12 (s.x.get f.xsel) (s.memRead ea))) s

/-- EMX: `v <- MemRead(ea); MemWrite(ea, (X[n] << 12) | v[11:0]); X[n] <- v[23:12]` (R155). -/
def execEmx (f : Form) (s : State) : Host.Outcome State Fault Refusal :=
  runInstr .emx f
    (fun ea s => (s.memWrite ea (withHigh12 (s.x.get f.xsel) (s.memRead ea))).setX f.xsel (high12 (s.memRead ea))) s

end Sys2Proof.Machine
end

