-- ==== Sys2Proof/Machine/Dispatch.lean ====
section
/-! DEFINITION. The dispatch: one arm per instruction, each a direct call of its meaning (41_sequencer.md R134). -/

namespace Sys2Proof.Machine

def exec (i : Instr) (s : State) : Host.Outcome State Fault Refusal :=
  match i with
  | .halt f => Sys2Proof.Machine.execHalt f s
  | .nop f => Sys2Proof.Machine.execNop f s
  | .ld f => Sys2Proof.Machine.execLd f s
  | .st f => Sys2Proof.Machine.execSt f s
  | .em f => Sys2Proof.Machine.execEm f s
  | .ldx f => Sys2Proof.Machine.execLdx f s
  | .stx f => Sys2Proof.Machine.execStx f s
  | .emx f => Sys2Proof.Machine.execEmx f s
  | .add f => Sys2Proof.Machine.execAdd f s
  | .sub f => Sys2Proof.Machine.execSub f s
  | .clr f => Sys2Proof.Machine.execClr f s
  | .com f => Sys2Proof.Machine.execCom f s
  | .and f => Sys2Proof.Machine.execAnd f s
  | .or f => Sys2Proof.Machine.execOr f s
  | .xor f => Sys2Proof.Machine.execXor f s
  | .addx f => Sys2Proof.Machine.execAddx f s
  | .subx f => Sys2Proof.Machine.execSubx f s
  | .clrx f => Sys2Proof.Machine.execClrx f s
  | .j f => Sys2Proof.Machine.execJ f s
  | .jz f => Sys2Proof.Machine.execJz f s
  | .jn f => Sys2Proof.Machine.execJn f s
  | .jp f => Sys2Proof.Machine.execJp f s

end Sys2Proof.Machine
end

