-- ==== Sys2Proof/Machine/Sequencer.lean ====
section
/-! DEFINITION. The parts of one step that stand around the execution of an instruction: the fetch, the trace record and the
step of an undefined opcode (41_sequencer.md R132 to R139). -/

namespace Sys2Proof.Machine

/-- `MemRead(pc0)` with its bound check: the fetched word, or AddressOutOfRange when `pc0 > 4095` (R42, R132). -/
def State.fetch (s : State) : Except CoreError Word := s.mem.readChecked s.pc.toNat

/-- `Snapshot()` (R139). -/
def State.snapshot (s : State) : Snapshot := { acc := s.acc, x := s.x }

/-- `emit Trace(record)`: the record joins those already handed to the sink (R138). -/
def State.emit (s : State) (r : TraceRecord) : State := { s with trace := s.trace ++ [r] }

/-- The trace record of the step that fetched `c.word` at `pc0` and left the registers as in `s` (R138). -/
def State.record (s : State) (pc0 : BitVec 13) (c : Control) : TraceRecord :=
  { addr := pc0.setWidth 12, word := c.word, mnemonic := c.mnemonic, display := c.display, regs := s.snapshot }

/-- An outcome with its next state, if it has one, changed. -/
def onNext (g : State → State) (o : Host.Outcome State Fault Refusal) : Host.Outcome State Fault Refusal :=
  match o with
  | .next s => .next (g s)
  | .fault e => .fault e
  | .refused r => .refused r

/-- What the step does with a decoded word once PC has advanced: an instruction is executed; an undefined opcode is Ignored
and only meets the halt check (R91, R134 to R136). -/
def executeDecoded (d : Decoded) (c : Control) (s : State) : Host.Outcome State Fault Refusal :=
  match d with
  | .instr i => exec i s
  | .undefinedOpcode _ _ => .next (s.conclude none c.mode)

/-- The step of a running engine (R132): fetch, decode, advance, execute with the halt check, emit the record. The halt check
writes only RS, which is no part of the record, so it is applied with the execution, before the record is emitted. -/
def stepRunning (s : State) : Host.Outcome State Fault Refusal :=
  match s.fetch with
  | .error e => .next (s.raiseFetchFault e)
  | .ok w =>
    let c := s.control w
    onNext (fun t => t.emit (t.record s.pc c)) (executeDecoded (decode s.cfg.opTable w) c s.advance)

end Sys2Proof.Machine
end

