-- ==== Sys2Proof/Machine/Step.lean ====
section
/-! DEFINITION. One step of the CORE (41_sequencer.md R131, R132), and the placing of a word where the next step fetches it. -/

namespace Sys2Proof.Machine

/-- `Step()`, "only while RUNNING": from HALTED or FAULTED there is no step (R131, R132). -/
def step (s : State) : Host.Outcome State Fault Refusal :=
  match s.rs with
  | .running => stepRunning s
  | .halted _ => .fault .notRunning
  | .faulted _ => .fault .notRunning

/-- The state with the word `w` at the program counter, so that the next step runs it: a PC beyond memory is taken into
0..4095 and RS is RUNNING. -/
def State.withFetchWord (s : State) (nbits w : Nat) : State :=
  { s with
    pc := BitVec.ofNat 13 (s.pc.toNat % 4096)
    mem := s.mem.write (s.pc.toNat % 4096) (BitVec.ofNat 24 (w % 2 ^ nbits))
    rs := .running }

end Sys2Proof.Machine
end

