-- ==== Sys2Proof/Machine/Loader.lean ====
section
/-! DEFINITION. The object-file loader (20_memory.md R53 to R65) and the launch (70_reset_and_hazards.md R240). A line is the
list of its characters as read, its terminator included (R53). -/

namespace Sys2Proof.Machine

/-- The value of a hexadecimal digit, upper or lower case (R53). -/
def hexDigit (c : Char) : Option Nat :=
  if 48 ≤ c.toNat ∧ c.toNat ≤ 57 then some (c.toNat - 48)
  else if 65 ≤ c.toNat ∧ c.toNat ≤ 70 then some (c.toNat - 55)
  else if 97 ≤ c.toNat ∧ c.toNat ≤ 102 then some (c.toNat - 87)
  else none

/-- The number the first `n` characters write in hexadecimal, continuing from `acc`; `none` when there are fewer or one is no
digit. -/
def hexDigits : Nat → Nat → List Char → Option Nat
  | 0, acc, _ => some acc
  | _ + 1, _, [] => none
  | n + 1, acc, c :: cs =>
    match hexDigit c with
    | some d => hexDigits n (16 * acc + d) cs
    | none => none

/-- The `n`-digit field of a line at character offset `i`: `hex2(L[i:i+2])`, `hex4(L[i:i+4])` (R53). -/
def hexField (L : List Char) (i n : Nat) : Option Nat := hexDigits n 0 (L.drop i)

/-- `k = floor(len(L) / 2) - 1`, the number of checksum windows, 0 when that is negative (R55). -/
def windowCount (L : List Char) : Nat := L.length / 2 - 1

/-- The sum of the first `k` two-digit windows, from offset 1 in steps of 2 (R55); `none` when one is not hexadecimal (R61). -/
def windowSum (L : List Char) : Nat → Option Nat
  | 0 => some 0
  | k + 1 =>
    match windowSum L k, hexField L (1 + 2 * k) 2 with
    | some t, some b => some (t + b)
    | _, _ => none

/-- The checksum of a line: it is valid when this is 0 modulo 256 (R55). -/
def checksum (L : List Char) : Option Nat := windowSum L (windowCount L)

/-- The word of group `i` of a data record: its bytes b0, b1, b2 in file order, `w = (b2 << 16) | (b1 << 8) | b0` (R59). -/
def groupWord (L : List Char) (i : Nat) : Option Word :=
  match hexField L (9 + 6 * i) 2, hexField L (11 + 6 * i) 2, hexField L (13 + 6 * i) 2 with
  | some b0, some b1, some b2 => some (BitVec.ofNat 24 (b2 * 65536 + b1 * 256 + b0))
  | _, _, _ => none

/-- The loader's working state: the image it builds, its base offset and its discovered start address (R31). -/
structure LoaderState where
  mem : Memory
  base : Nat
  disc : Nat
  deriving DecidableEq, Repr

/-- The loader before its first line (R58, R62, R64). -/
def LoaderState.initial : LoaderState := { mem := [], base := 0, disc := 0 }

/-- Write `n` groups of a data record, from group `i` on, to the addresses from `target + i` on (R59, R60, R61). -/
def writeGroups (idx : Nat) (L : List Char) (target : Nat) : Nat → Nat → Memory → Except CoreError Memory
  | 0, _, m => .ok m
  | n + 1, i, m =>
    match groupWord L i with
    | none => .error (.loadRefused (.line idx))
    | some w =>
      match m.writeChecked (target + i) w with
      | .error e => .error e
      | .ok m' => writeGroups idx L target n (i + 1) m'

/-- A data record (R59 to R61). -/
def loadData (idx : Nat) (L : List Char) (st : LoaderState) : Except CoreError LoaderState :=
  match hexField L 1 2, hexField L 3 4 with
  | some n, some addr =>
    if n % 3 ≠ 0 ∨ L.length < 9 + 2 * n then .error (.loadRefused (.line idx))
    else
      match writeGroups idx L (st.base + addr) (n / 3) 0 st.mem with
      | .ok m => .ok { st with mem := m }
      | .error e => .error e
  | _, _ => .error (.loadRefused (.line idx))

/-- A base-offset record: `base <- hex4(L[9:13]) << 4`, which is the discovered start address too (R58, R62). -/
def loadBase (idx : Nat) (L : List Char) (st : LoaderState) : Except CoreError LoaderState :=
  match hexField L 9 4 with
  | some v => .ok { st with base := v * 16, disc := v * 16 }
  | none => .error (.loadRefused (.line idx))

/-- The lines from index `idx` on, in order: the checksum first, then the record type's action (R55 to R61, R64, R217). -/
def loadLines : Nat → LoaderState → List (List Char) → Except CoreError LoaderState
  | _, st, [] => .ok st
  | idx, st, L :: rest =>
    match checksum L with
    | none => .error (.loadRefused (.line idx))
    | some sum =>
      if sum % 256 ≠ 0 then .error (.formatError idx)
      else
        match hexField L 7 2 with
        | none => .error (.loadRefused (.line idx))
        | some 1 => .ok st
        | some 2 =>
          match loadBase idx L st with
          | .ok st' => loadLines (idx + 1) st' rest
          | .error e => .error e
        | some _ =>
          match loadData idx L st with
          | .ok st' => loadLines (idx + 1) st' rest
          | .error e => .error e

/-- What a load that ended normally yields: the memory image and the resolved start address (R63). -/
structure Loaded where
  mem : Memory
  start : Addr
  deriving DecidableEq, Repr

/-- `Load(lines, override)` (R64): all-or-nothing, with the start address resolved (R62). -/
def load (lines : List (List Char)) (override : Option Nat) : Except CoreError Loaded :=
  match loadLines 0 LoaderState.initial lines with
  | .error e => .error e
  | .ok st =>
    if override.getD st.disc ≤ 4095 then .ok { mem := st.mem, start := BitVec.ofNat 12 (override.getD st.disc) }
    else .error (.loadRefused (.start (override.getD st.disc)))

/-- The launch: the state in which the engine starts, or the load's error, with which the engine never starts (R63, R240). -/
def launch (cfg : Config) (lines : List (List Char)) (override : Option Nat) : Except CoreError State :=
  match load lines override with
  | .error e => .error e
  | .ok r =>
    .ok { cfg := cfg, acc := 0, x := XRegs.reset, pc := r.start.setWidth 13, mem := r.mem, rs := .running, trace := [] }

/-! ### Writing a data record: the loader's format read the other way -/

/-- The hexadecimal digit of a number below 16, upper case. -/
def hexChar (d : Nat) : Char := if d < 10 then Char.ofNat (48 + d) else Char.ofNat (55 + d)

/-- The `n` hexadecimal digits of `v`, most significant first. -/
def hexText : Nat → Nat → List Char
  | 0, _ => []
  | n + 1, v => hexText n (v / 16) ++ [hexChar (v % 16)]

/-- The three bytes of a word in file order, least significant first (R59). -/
def wordBytes (w : Word) : List Nat := [w.toNat % 256, w.toNat / 256 % 256, w.toNat / 65536]

/-- The bytes a data record's line writes before its checksum: byte count, address, type 00 and payload (R54). -/
def recordBytes (addr : Nat) (ws : List Word) : List Nat :=
  [3 * ws.length, addr / 256, addr % 256, 0] ++ ws.flatMap wordBytes

/-- The line of a data record that places `ws` from word address `addr` on: marker, bytes, checksum byte, line feed (R54, R65). -/
def dataLine (addr : Nat) (ws : List Word) : List Char :=
  ':' :: (recordBytes addr ws).flatMap (hexText 2) ++
    hexText 2 ((256 - (recordBytes addr ws).sum % 256) % 256) ++ ['\n']

end Sys2Proof.Machine
end

