-- ==== Sys2Proof/Machine/Run.lean ====
section
/-! DEFINITION. The operation `run()` of the engine and what it answers (41_sequencer.md R140, R142). -/

namespace Sys2Proof.Machine

/-- What a run bounded by fuel answers. -/
inductive RunResult where
  /-- The run ended: the state is the first whose RS is HALTED or FAULTED, and its RS holds the reason or error (R142). -/
  | ended (s : State)
  /-- The fuel ran out while RS was RUNNING: no outcome of the CORE, whose run goes on (R140). -/
  | outOfFuel (s : State)
  /-- A step of a running state answered no next state. No run answers this. -/
  | stuck (s : State)
  deriving DecidableEq, Repr

/-- "Repeats `Step()` while `RS = RUNNING`" (R140), at most `fuel` times. -/
def run : Nat → State → RunResult
  | 0, s =>
    match s.rs with
    | .running => .outOfFuel s
    | .halted _ => .ended s
    | .faulted _ => .ended s
  | fuel + 1, s =>
    match s.rs with
    | .running =>
      match step s with
      | .next t => run fuel t
      | .fault _ => .stuck s
      | .refused _ => .stuck s
    | .halted _ => .ended s
    | .faulted _ => .ended s

end Sys2Proof.Machine
end

