-- ==== Sys2Proof/Safety.lean ====
section
/-! DEFINITION. What a sound state of the CORE is: the relations between its fields that every launch establishes and every
step keeps. -/

namespace Sys2Proof.Machine

/-- PC names a word, or, only under `PC_WRAP = FAULT`, is 4096 (R20, R25). -/
def State.pcInRange (s : State) : Bool :=
  decide (s.pc.toNat ≤ 4095) || (decide (s.cfg.pcWrap = .fault) && decide (s.pc.toNat = 4096))

/-- FAULTED is reached only under `PC_WRAP = FAULT`, by the fetch at 4096 (R27, R213). -/
def State.faultExplained (s : State) : Bool :=
  match s.rs with
  | .faulted e => decide (e = .addressOutOfRange 4096) && decide (s.cfg.pcWrap = .fault) && decide (s.pc.toNat = 4096)
  | _ => true

/-- A sound state: canonical memory within 0..4095, PC in range, no fault unexplained. -/
abbrev State.Sound (s : State) : Prop :=
  s.mem.wf = true ∧ s.pcInRange = true ∧ s.faultExplained = true

end Sys2Proof.Machine
end

