-- ==== Sys2Proof/Certificates/Slice0/Obligations.lean ====
section
/-! DEFINITION. The statements about the CORE: its encoding, its resolver, each instruction, the step, whole-machine rules and
the loader. Each docstring names the rule of spec/ a statement formalises, and the spec's own decisions it rests on. -/

open Sys2Proof Sys2Proof.Machine

/-! ### Encoding -/

/-- Under every opcode table that is a map, decoding the word the encoder writes for a well-formed instruction gives that
instruction; and the default encoder is the encoder under the default table, which has a cell for every mnemonic. The layout is
the spec's decision (D2, D3), the default table D4. -/
def Obligations.DecodeOfEncodeIsTheInstruction : Prop :=
  (∀ (t : OpTable) (i : Instr) (w : Word), OpTable.wf t = true → i.wf = true → encodeIn t i = some w →
    decode t w = .instr i) ∧
  (OpTable.wf OpTable.standard = true ∧ ∀ i : Instr, encodeIn OpTable.standard i = some (encode i))

/-- Under the default table every word that decodes to an instruction is that instruction's encoding, and the instruction is
well-formed: no bit of a word is lost (D2, D3, D4). -/
def Obligations.EncodeOfDecodeIsTheWord : Prop :=
  ∀ (w : Word) (i : Instr), decode OpTable.standard w = .instr i → i.wf = true ∧ encode i = w

/-- R84's selector table, on every word under every opcode table: the number in bits 5..2 gives the mode (the position is D2). -/
def Obligations.SelectorGivesTheMode : Prop :=
  ∀ (t : OpTable) (w : Word) (i : Instr), decode t w = .instr i →
    (w.toNat / 4 % 16 = 0 → i.form.mode = .direct) ∧
    (w.toNat / 4 % 16 = 1 → i.form.mode = .immediate) ∧
    (w.toNat / 4 % 16 = 2 → i.form.mode = .indexed) ∧
    (w.toNat / 4 % 16 = 4 → i.form.mode = .indirect) ∧
    (w.toNat / 4 % 16 = 6 → i.form.mode = .indexedIndirect) ∧
    (w.toNat / 4 % 16 ∉ [0, 1, 2, 4, 6] → ∃ p, i.form.mode = .illegal p)

/-- The operand is the word's top 12 bits, the index register is named by its lowest two, and the mnemonic stands in the cell
of `OPTABLE` that bits 11..10 and 9..6 name (R81, R83, R85; the positions are the decisions D2 and D3). -/
def Obligations.DecodeReadsTheFields : Prop :=
  ∀ (t : OpTable) (w : Word) (i : Instr), decode t w = .instr i →
    i.form.opnd.toNat = w.toNat / 4096 ∧
    (w.toNat % 4 = 0 → i.form.xsel = .x0) ∧ (w.toNat % 4 = 1 → i.form.xsel = .x1) ∧
    (w.toNat % 4 = 2 → i.form.xsel = .x2) ∧ (w.toNat % 4 = 3 → i.form.xsel = .x3) ∧
    t.lookup (BitVec.ofNat 2 (w.toNat / 1024)) (BitVec.ofNat 4 (w.toNat / 64)) = some i.mnemonic

/-- Words written out from the spec's encoding decode to the instructions they stand for (R97 and 95_test_vectors.md 2.1). -/
def Obligations.WrittenOutWordsDecode : Prop :=
  decode OpTable.standard 0b000000000000_00_0000_0000_00#24 = .instr (.halt ⟨0, .direct, .x0⟩) ∧
  decode OpTable.standard 0b000000000101_01_0000_0001_00#24 = .instr (.ld ⟨5, .immediate, .x0⟩) ∧
  decode OpTable.standard 0b000001010001_01_1001_0000_11#24 = .instr (.stx ⟨0x051, .direct, .x3⟩) ∧
  decode OpTable.standard 0b111111111111_10_0110_0001_00#24 = .instr (.xor ⟨0xFFF, .immediate, .x0⟩) ∧
  decode OpTable.standard 0b000000000001_10_1000_0001_01#24 = .instr (.addx ⟨1, .immediate, .x1⟩) ∧
  decode OpTable.standard 0b000000100000_11_0010_0100_00#24 = .instr (.jn ⟨0x020, .indirect, .x0⟩) ∧
  decode OpTable.standard 0b000000000000_10_0000_1111_00#24 = .instr (.add ⟨0, .illegal 0xF, .x0⟩) ∧
  decode OpTable.standard 0b000000000000_11_1111_0000_00#24 = .undefinedOpcode 3 15

/-- R91 and R214: a word whose cell is empty decodes to the rejection of its opcode, under every opcode table; executing it,
with a selector that is mapped, halts with "undefined opcode" after PC has advanced and the record is emitted. Of the 64 cells
of the default table 42 are empty. -/
def Obligations.UndefinedOpcodeHalts : Prop :=
  (∀ (t : OpTable) (w : Word), t.lookup (catOf w) (opOf w) = none →
    decode t w = .undefinedOpcode (catOf w) (opOf w)) ∧
  (∀ s : State, s.rs = .running → s.pc.toNat ≤ 4095 →
    s.cfg.opTable.lookup (catOf (s.mem.read s.pc.toNat)) (opOf (s.mem.read s.pc.toNat)) = none →
    (∀ p, (formOf (s.mem.read s.pc.toNat)).mode ≠ .illegal p) →
    ∃ r : TraceRecord, r.mnemonic = none ∧ r.word = s.mem.read s.pc.toNat ∧
      step s = .next { s with
        pc := nextPc s.cfg.pcWrap s.pc
        rs := .halted .undefinedOpcode
        trace := s.trace ++ [r] }) ∧
  ((List.range 64).filter fun n =>
    (OpTable.standard.lookup (BitVec.ofNat 2 (n / 16)) (BitVec.ofNat 4 n)).isNone).length = 42

/-! ### Effective addresses and operand values -/

/-- R111, R113, R115 and R116: the modes that read no index register. DIRECT and IMMEDIATE give the operand, ILLEGAL gives
nothing, all three from any state alike; INDIRECT gives the top 12 bits of the word stored at the operand, not reduced. The
instructions that would write or jump to an IMMEDIATE operand reject the mode. -/
def Obligations.PlainModesResolve : Prop :=
  ∀ (f : Form) (s : State),
    (f.mode = .direct → s.resolve f = some f.opnd) ∧
    (f.mode = .immediate → s.resolve f = some f.opnd) ∧
    (∀ p, f.mode = .illegal p → s.resolve f = none) ∧
    (f.mode = .indirect → ∃ ea : Addr, s.resolve f = some ea ∧ ea.toNat = (s.mem.read f.opnd.toNat).toNat / 4096) ∧
    (f.mode = .immediate → ∀ i : Instr, i.form = f →
      i.mnemonic ∈ [Mnemonic.st, .em, .stx, .emx, .j, .jz, .jn, .jp] →
      exec i s = .next { s with rs := .halted .illegalAddressingMode })

/-- INDEXED adds the index register to the operand modulo `EA_MOD`; INDEXED_INDIRECT gives the top 12 bits of the word at that
sum, which is not indexed again (R112, R114; the modulus is the decision D5, a parameter). -/
def Obligations.IndexedModesResolve : Prop :=
  ∀ (f : Form) (s : State) (k : Nat), (s.cfg.eaMod = .mod4096 → k = 4096) → (s.cfg.eaMod = .mod4095 → k = 4095) →
    (f.mode = .indexed →
      ∃ ea : Addr, s.resolve f = some ea ∧ ea.toNat = (f.opnd.toNat + (s.x.get f.xsel).toNat) % k) ∧
    (f.mode = .indexedIndirect →
      ∃ ea : Addr, s.resolve f = some ea ∧
        ea.toNat = (s.mem.read ((f.opnd.toNat + (s.x.get f.xsel).toNat) % k)).toNat / 4096)

/-- Under `EA_MOD = 4096`, the spec's default (D5), another value of the selected index register gives another INDEXED address,
and no other index register matters (R117, R112). -/
def Obligations.IndexChangesTheAddress : Prop :=
  ∀ (f : Form) (s t : State), f.mode = .indexed → s.cfg.eaMod = .mod4096 → t.cfg.eaMod = .mod4096 →
    (s.resolve f = t.resolve f ↔ s.x.get f.xsel = t.x.get f.xsel)

/-- `Val` and `HighVal` as numbers: the operand when IMMEDIATE, else the part of the memory word `MEMVAL` selects, and the word's
top 12 bits (R118, R119; `MEMVAL` is the decision D8, zero-extension D9). -/
def Obligations.OperandValues : Prop :=
  ∀ (f : Form) (s : State) (ea : Addr),
    (f.mode = .immediate → (s.val f ea).toNat = f.opnd.toNat ∧ s.highVal f ea = f.opnd) ∧
    (f.mode ≠ .immediate →
      (s.cfg.memVal = .low12 → (s.val f ea).toNat = (s.mem.read ea.toNat).toNat % 4096) ∧
      (s.cfg.memVal = .high12 → (s.val f ea).toNat = (s.mem.read ea.toNat).toNat / 4096) ∧
      (s.cfg.memVal = .full24 → s.val f ea = s.mem.read ea.toNat) ∧
      (s.highVal f ea).toNat = (s.mem.read ea.toNat).toNat / 4096)

/-! ### Load, store and exchange -/

/-- LD (R150): `ACC <- Val(c)` in all five modes; ILLEGAL halts with no write. With an IMMEDIATE operand, or unless `MEMVAL` is
FULL24, ACC ends in 0..0xFFF and not negative. The cell is D4. -/
def Obligations.LdLoadsTheAccumulator : Prop :=
  (∀ w : Word, w.extractLsb' 6 6 = 0x10#6 → decode OpTable.standard w = .instr (.ld (formOf w))) ∧
  ∀ (f : Form) (s : State),
    ((∀ p, f.mode ≠ .illegal p) → ∃ ea, s.resolve f = some ea ∧
      exec (.ld f) s = .next { s with acc := s.val f ea, rs := .running } ∧
      (f.mode = .immediate ∨ s.cfg.memVal ≠ .full24 →
        (s.val f ea).toNat ≤ 0xFFF ∧ 0 ≤ signed24 (s.val f ea))) ∧
    (∀ p, f.mode = .illegal p → exec (.ld f) s = .next { s with rs := .halted .illegalAddressingMode })

/-- ST (R151): the whole ACC is written at `ea` in every mode but IMMEDIATE, which halts with memory unchanged, as ILLEGAL does.
In a canonical memory the word reads back as ACC, and under the default `MEMVAL` LD of the same DIRECT address returns it
exactly when it is at most 0xFFF (D11, C3). -/
def Obligations.StStoresTheAccumulator : Prop :=
  (∀ w : Word, w.extractLsb' 6 6 = 0x11#6 → decode OpTable.standard w = .instr (.st (formOf w))) ∧
  ∀ (f : Form) (s : State),
    ((∀ p, f.mode ≠ .illegal p) → f.mode ≠ .immediate → ∃ ea, s.resolve f = some ea ∧
      exec (.st f) s = .next { s with mem := s.mem.write ea.toNat s.acc, rs := .running } ∧
      (s.mem.wf = true → (s.mem.write ea.toNat s.acc).read ea.toNat = s.acc)) ∧
    (f.mode = .immediate ∨ (∃ p, f.mode = .illegal p) →
      exec (.st f) s = .next { s with rs := .halted .illegalAddressingMode }) ∧
    (f.mode = .direct → s.mem.wf = true → s.cfg.memVal = .low12 →
      ∃ t u, exec (.st f) s = .next t ∧ exec (.ld f) t = .next u ∧ (u.acc = s.acc ↔ s.acc.toNat ≤ 0xFFF))

/-- EM (R152): ACC and the whole word at `ea` are swapped, without the `MEMVAL` reduction, in every mode but IMMEDIATE, which
halts with no write, as ILLEGAL does; twice at the same DIRECT address of a canonical memory restores both (D12). -/
def Obligations.EmExchangesTheAccumulator : Prop :=
  (∀ w : Word, w.extractLsb' 6 6 = 0x12#6 → decode OpTable.standard w = .instr (.em (formOf w))) ∧
  ∀ (f : Form) (s : State),
    ((∀ p, f.mode ≠ .illegal p) → f.mode ≠ .immediate → ∃ ea, s.resolve f = some ea ∧
      exec (.em f) s =
        .next { s with mem := s.mem.write ea.toNat s.acc, acc := s.mem.read ea.toNat, rs := .running }) ∧
    (f.mode = .immediate ∨ (∃ p, f.mode = .illegal p) →
      exec (.em f) s = .next { s with rs := .halted .illegalAddressingMode }) ∧
    (f.mode = .direct → s.mem.wf = true →
      ∃ t, exec (.em f) s = .next t ∧ exec (.em f) t = .next { s with rs := .running })

/-- R153, LDX: the register named by xsel takes the operand when IMMEDIATE and the high 12 bits of the addressed word when
DIRECT; every other mode halts with no write. -/
def Obligations.LdxLoadsTheIndexRegister : Prop :=
  (∀ w : Word, w.extractLsb' 6 6 = 0x18#6 → decode OpTable.standard w = .instr (.ldx (formOf w))) ∧
  ∀ (f : Form) (s : State),
    (f.mode = .immediate → exec (.ldx f) s = .next { s with x := s.x.set f.xsel f.opnd, rs := .running }) ∧
    (f.mode = .direct → ∃ v : Addr, v.toNat = (s.mem.read f.opnd.toNat).toNat / 4096 ∧
      exec (.ldx f) s = .next { s with x := s.x.set f.xsel v, rs := .running }) ∧
    (f.mode ≠ .immediate → f.mode ≠ .direct →
      exec (.ldx f) s = .next { s with rs := .halted .illegalAddressingMode })

/-- STX (R154): the register goes to the high 12 bits of the DIRECT word, whose low 12 bits are kept; every other mode halts
with no write. In a canonical memory the stored word is an INDIRECT pointer to the address the register held (D13). -/
def Obligations.StxStoresTheIndexRegister : Prop :=
  (∀ w : Word, w.extractLsb' 6 6 = 0x19#6 → decode OpTable.standard w = .instr (.stx (formOf w))) ∧
  ∀ (f : Form) (s : State),
    (f.mode = .direct → ∃ (v : Word) (t : State),
      v.toNat = (s.x.get f.xsel).toNat * 4096 + (s.mem.read f.opnd.toNat).toNat % 4096 ∧
      t = { s with mem := s.mem.write f.opnd.toNat v, rs := .running } ∧ exec (.stx f) s = .next t ∧
      (s.mem.wf = true → t.resolve { f with mode := .indirect } = some (s.x.get f.xsel))) ∧
    (f.mode ≠ .direct → exec (.stx f) s = .next { s with rs := .halted .illegalAddressingMode })

/-- EMX (R155): the register and the high 12 bits of the DIRECT word are swapped, the word's low 12 bits are kept; every other
mode halts with no write; twice in a canonical memory restores both (D13). -/
def Obligations.EmxExchangesTheIndexRegister : Prop :=
  (∀ w : Word, w.extractLsb' 6 6 = 0x1A#6 → decode OpTable.standard w = .instr (.emx (formOf w))) ∧
  ∀ (f : Form) (s : State),
    (f.mode = .direct → ∃ (v : Word) (h : Addr),
      v.toNat = (s.x.get f.xsel).toNat * 4096 + (s.mem.read f.opnd.toNat).toNat % 4096 ∧
      h.toNat = (s.mem.read f.opnd.toNat).toNat / 4096 ∧
      exec (.emx f) s =
        .next { s with mem := s.mem.write f.opnd.toNat v, x := s.x.set f.xsel h, rs := .running }) ∧
    (f.mode = .direct → s.mem.wf = true →
      ∃ t, exec (.emx f) s = .next t ∧ exec (.emx f) t = .next { s with rs := .running }) ∧
    (f.mode ≠ .direct → exec (.emx f) s = .next { s with rs := .halted .illegalAddressingMode })

/-! ### Accumulator and index arithmetic and logic -/

/-- R171, ADD: `ACC <- (ACC + Val(c)) mod 2^24` in all five modes; ILLEGAL halts with no write. -/
def Obligations.AddAddsModulo : Prop :=
  (∀ w : Word, w.extractLsb' 6 6 = 0x20#6 → decode OpTable.standard w = .instr (.add (formOf w))) ∧
  ∀ (f : Form) (s : State),
    ((∀ p, f.mode ≠ .illegal p) → ∃ ea, s.resolve f = some ea ∧ exec (.add f) s =
      .next { s with acc := BitVec.ofNat 24 ((s.acc.toNat + (s.val f ea).toNat) % 2 ^ 24), rs := .running }) ∧
    (∀ p, f.mode = .illegal p → exec (.add f) s = .next { s with rs := .halted .illegalAddressingMode })

/-- R172, SUB: `ACC <- (ACC - Val(c)) mod 2^24` in all five modes; ILLEGAL halts with no write. -/
def Obligations.SubSubtractsModulo : Prop :=
  (∀ w : Word, w.extractLsb' 6 6 = 0x21#6 → decode OpTable.standard w = .instr (.sub (formOf w))) ∧
  ∀ (f : Form) (s : State),
    ((∀ p, f.mode ≠ .illegal p) → ∃ ea, s.resolve f = some ea ∧ ∃ v : Word,
      (v.toNat : Int) = ((s.acc.toNat : Int) - (s.val f ea).toNat) % 2 ^ 24 ∧
      exec (.sub f) s = .next { s with acc := v, rs := .running }) ∧
    (∀ p, f.mode = .illegal p → exec (.sub f) s = .next { s with rs := .halted .illegalAddressingMode })

/-- CLR (R173): `ACC <- 0` whatever the operand form; ILLEGAL halts with no write (D14). -/
def Obligations.ClrClearsTheAccumulator : Prop :=
  (∀ w : Word, w.extractLsb' 6 6 = 0x22#6 → decode OpTable.standard w = .instr (.clr (formOf w))) ∧
  ∀ (f : Form) (s : State),
    ((∀ p, f.mode ≠ .illegal p) → exec (.clr f) s = .next { s with acc := 0, rs := .running }) ∧
    (∀ p, f.mode = .illegal p → exec (.clr f) s = .next { s with rs := .halted .illegalAddressingMode })

/-- COM (R174): all 24 bits of ACC are inverted, which as a signed number is `-ACC - 1`; twice restores ACC; ILLEGAL halts with
no write (D6, D14). -/
def Obligations.ComComplementsTheAccumulator : Prop :=
  (∀ w : Word, w.extractLsb' 6 6 = 0x23#6 → decode OpTable.standard w = .instr (.com (formOf w))) ∧
  ∀ (f : Form) (s : State),
    ((∀ p, f.mode ≠ .illegal p) → ∃ v : Word,
      (∀ k < 24, v.getLsbD k = !s.acc.getLsbD k) ∧ signed24 v = -signed24 s.acc - 1 ∧
      exec (.com f) s = .next { s with acc := v, rs := .running } ∧
      exec (.com f) { s with acc := v, rs := .running } = .next { s with rs := .running }) ∧
    (∀ p, f.mode = .illegal p → exec (.com f) s = .next { s with rs := .halted .illegalAddressingMode })

/-- R175, AND: `ACC <- ACC AND Val(c)` bit by bit; unless `MEMVAL` is FULL24, and with every IMMEDIATE operand, the result is at
most 0xFFF and not negative; ILLEGAL halts with no write. -/
def Obligations.AndMasksTheAccumulator : Prop :=
  (∀ w : Word, w.extractLsb' 6 6 = 0x24#6 → decode OpTable.standard w = .instr (.and (formOf w))) ∧
  ∀ (f : Form) (s : State),
    ((∀ p, f.mode ≠ .illegal p) → ∃ ea, s.resolve f = some ea ∧ ∃ v : Word,
      (∀ k < 24, v.getLsbD k = (s.acc.getLsbD k && (s.val f ea).getLsbD k)) ∧
      exec (.and f) s = .next { s with acc := v, rs := .running } ∧
      (f.mode = .immediate ∨ s.cfg.memVal ≠ .full24 → v.toNat ≤ 0xFFF ∧ 0 ≤ signed24 v)) ∧
    (∀ p, f.mode = .illegal p → exec (.and f) s = .next { s with rs := .halted .illegalAddressingMode })

/-- R176, OR: `ACC <- ACC OR Val(c)` bit by bit; unless `MEMVAL` is FULL24, and with every IMMEDIATE operand, ACC[23:12] is
unchanged; ILLEGAL halts with no write. -/
def Obligations.OrSetsAccumulatorBits : Prop :=
  (∀ w : Word, w.extractLsb' 6 6 = 0x25#6 → decode OpTable.standard w = .instr (.or (formOf w))) ∧
  ∀ (f : Form) (s : State),
    ((∀ p, f.mode ≠ .illegal p) → ∃ ea, s.resolve f = some ea ∧ ∃ v : Word,
      (∀ k < 24, v.getLsbD k = (s.acc.getLsbD k || (s.val f ea).getLsbD k)) ∧
      exec (.or f) s = .next { s with acc := v, rs := .running } ∧
      (f.mode = .immediate ∨ s.cfg.memVal ≠ .full24 → v.toNat / 4096 = s.acc.toNat / 4096)) ∧
    (∀ p, f.mode = .illegal p → exec (.or f) s = .next { s with rs := .halted .illegalAddressingMode })

/-- R177, XOR: `ACC <- ACC XOR Val(c)` bit by bit; unless `MEMVAL` is FULL24, and with every IMMEDIATE operand, ACC[23:12] is
unchanged, and XOR twice with the same IMMEDIATE value restores ACC; ILLEGAL halts with no write. -/
def Obligations.XorTogglesAccumulatorBits : Prop :=
  (∀ w : Word, w.extractLsb' 6 6 = 0x26#6 → decode OpTable.standard w = .instr (.xor (formOf w))) ∧
  ∀ (f : Form) (s : State),
    ((∀ p, f.mode ≠ .illegal p) → ∃ ea, s.resolve f = some ea ∧ ∃ v : Word,
      (∀ k < 24, v.getLsbD k = (s.acc.getLsbD k ^^ (s.val f ea).getLsbD k)) ∧
      exec (.xor f) s = .next { s with acc := v, rs := .running } ∧
      (f.mode = .immediate ∨ s.cfg.memVal ≠ .full24 → v.toNat / 4096 = s.acc.toNat / 4096) ∧
      exec (.xor f) { s with acc := v, rs := .running } = .next { s with rs := .running }) ∧
    (∀ p, f.mode = .illegal p → exec (.xor f) s = .next { s with rs := .halted .illegalAddressingMode })

/-- ADDX (R178): `X[n] <- (X[n] + Val(c)) mod 4096`, the address formed from the register's value before the add; ILLEGAL halts
with no write (D7, D14). -/
def Obligations.AddxAddsModulo : Prop :=
  (∀ w : Word, w.extractLsb' 6 6 = 0x28#6 → decode OpTable.standard w = .instr (.addx (formOf w))) ∧
  ∀ (f : Form) (s : State),
    ((∀ p, f.mode ≠ .illegal p) → ∃ ea, s.resolve f = some ea ∧ ∃ v : Addr,
      v.toNat = ((s.x.get f.xsel).toNat + (s.val f ea).toNat) % 4096 ∧
      exec (.addx f) s = .next { s with x := s.x.set f.xsel v, rs := .running }) ∧
    (∀ p, f.mode = .illegal p → exec (.addx f) s = .next { s with rs := .halted .illegalAddressingMode })

/-- SUBX (R179): `X[n] <- (X[n] - Val(c)) mod 4096`; ILLEGAL halts with no write (D7, D14). -/
def Obligations.SubxSubtractsModulo : Prop :=
  (∀ w : Word, w.extractLsb' 6 6 = 0x29#6 → decode OpTable.standard w = .instr (.subx (formOf w))) ∧
  ∀ (f : Form) (s : State),
    ((∀ p, f.mode ≠ .illegal p) → ∃ ea, s.resolve f = some ea ∧ ∃ v : Addr,
      (v.toNat : Int) = (((s.x.get f.xsel).toNat : Int) - (s.val f ea).toNat) % 4096 ∧
      exec (.subx f) s = .next { s with x := s.x.set f.xsel v, rs := .running }) ∧
    (∀ p, f.mode = .illegal p → exec (.subx f) s = .next { s with rs := .halted .illegalAddressingMode })

/-- CLRX (R180): `X[n] <- 0` whatever the operand form; ILLEGAL halts with no write (D14). -/
def Obligations.ClrxClearsTheIndexRegister : Prop :=
  (∀ w : Word, w.extractLsb' 6 6 = 0x2A#6 → decode OpTable.standard w = .instr (.clrx (formOf w))) ∧
  ∀ (f : Form) (s : State),
    ((∀ p, f.mode ≠ .illegal p) → exec (.clrx f) s = .next { s with x := s.x.set f.xsel 0, rs := .running }) ∧
    (∀ p, f.mode = .illegal p → exec (.clrx f) s = .next { s with rs := .halted .illegalAddressingMode })

/-! ### Halt, no-op and control transfer -/

/-- HALT (R191): no register or memory write, RS becomes HALTED("halt instruction executed"), or "illegal addressing mode" with
an ILLEGAL selector (D15); a run from a state that fetches it with a mapped selector is exactly one step. -/
def Obligations.HaltEndsTheRun : Prop :=
  (∀ w : Word, w.extractLsb' 6 6 = 0x00#6 → decode OpTable.standard w = .instr (.halt (formOf w))) ∧
  (∀ (f : Form) (s : State),
    ((∀ p, f.mode ≠ .illegal p) → exec (.halt f) s = .next { s with rs := .halted .haltInstruction }) ∧
    (∀ p, f.mode = .illegal p → exec (.halt f) s = .next { s with rs := .halted .illegalAddressingMode })) ∧
  (∀ (f : Form) (s : State), s.rs = .running → s.pc.toNat ≤ 4095 → (∀ p, f.mode ≠ .illegal p) →
    decode s.cfg.opTable (s.mem.read s.pc.toNat) = .instr (.halt f) →
    ∃ r : TraceRecord, r.mnemonic = some .halt ∧ ∀ n, run (n + 1) s = .ended { s with
      pc := nextPc s.cfg.pcWrap s.pc
      rs := .halted .haltInstruction
      trace := s.trace ++ [r] })

/-- NOP (R192): nothing is written and the run goes on; with an ILLEGAL selector it halts "illegal addressing mode" (D15). -/
def Obligations.NopDoesNothing : Prop :=
  (∀ w : Word, w.extractLsb' 6 6 = 0x01#6 → decode OpTable.standard w = .instr (.nop (formOf w))) ∧
  ∀ (f : Form) (s : State),
    ((∀ p, f.mode ≠ .illegal p) → exec (.nop f) s = .next { s with rs := .running }) ∧
    (∀ p, f.mode = .illegal p → exec (.nop f) s = .next { s with rs := .halted .illegalAddressingMode })

/-- R193, J: PC becomes `ea` in every mode but IMMEDIATE, which halts with PC left alone, as ILLEGAL does. An INDIRECT jump goes
to the high 12 bits of the word at its operand, an INDEXED one through an index register that holds 0xFFF, as X2 does at reset,
goes to the operand less one, and a DIRECT one to its own address never ends: no amount of fuel gives the run an end. -/
def Obligations.JumpSetsTheProgramCounter : Prop :=
  (∀ w : Word, w.extractLsb' 6 6 = 0x30#6 → decode OpTable.standard w = .instr (.j (formOf w))) ∧
  (∀ (f : Form) (s : State),
    ((∀ p, f.mode ≠ .illegal p) → f.mode ≠ .immediate → ∃ ea, s.resolve f = some ea ∧
      exec (.j f) s = .next { s with pc := BitVec.ofNat 13 ea.toNat, rs := .running }) ∧
    (f.mode = .immediate ∨ (∃ p, f.mode = .illegal p) →
      exec (.j f) s = .next { s with rs := .halted .illegalAddressingMode }) ∧
    (f.mode = .indirect → exec (.j f) s =
      .next { s with pc := BitVec.ofNat 13 ((s.mem.read f.opnd.toNat).toNat / 4096), rs := .running }) ∧
    (f.mode = .indexed → s.cfg.eaMod = .mod4096 → s.x.get f.xsel = 0xFFF#12 → exec (.j f) s =
      .next { s with pc := BitVec.ofNat 13 ((f.opnd.toNat + 4095) % 4096), rs := .running })) ∧
  (∀ (f : Form) (s : State), s.rs = .running → f.mode = .direct → s.pc.toNat = f.opnd.toNat →
    decode s.cfg.opTable (s.mem.read s.pc.toNat) = .instr (.j f) → ∀ n, ∃ t, run n s = .outOfFuel t)

/-- R194, JZ: PC becomes `ea` exactly when ACC is 0, and is left alone otherwise; IMMEDIATE and ILLEGAL halt with no jump. -/
def Obligations.JumpIfZero : Prop :=
  (∀ w : Word, w.extractLsb' 6 6 = 0x31#6 → decode OpTable.standard w = .instr (.jz (formOf w))) ∧
  ∀ (f : Form) (s : State),
    ((∀ p, f.mode ≠ .illegal p) → f.mode ≠ .immediate → ∃ ea, s.resolve f = some ea ∧
      (s.acc.toNat = 0 → exec (.jz f) s = .next { s with pc := BitVec.ofNat 13 ea.toNat, rs := .running }) ∧
      (s.acc.toNat ≠ 0 → exec (.jz f) s = .next { s with rs := .running })) ∧
    (f.mode = .immediate ∨ (∃ p, f.mode = .illegal p) →
      exec (.jz f) s = .next { s with rs := .halted .illegalAddressingMode })

/-- JN (R195): PC becomes `ea` exactly when ACC read as a two's-complement number is negative; IMMEDIATE and ILLEGAL halt with
no jump (D10). -/
def Obligations.JumpIfNegative : Prop :=
  (∀ w : Word, w.extractLsb' 6 6 = 0x32#6 → decode OpTable.standard w = .instr (.jn (formOf w))) ∧
  ∀ (f : Form) (s : State),
    ((∀ p, f.mode ≠ .illegal p) → f.mode ≠ .immediate → ∃ ea, s.resolve f = some ea ∧
      (2 ^ 23 ≤ s.acc.toNat → exec (.jn f) s = .next { s with pc := BitVec.ofNat 13 ea.toNat, rs := .running }) ∧
      (s.acc.toNat < 2 ^ 23 → exec (.jn f) s = .next { s with rs := .running }) ∧
      (2 ^ 23 ≤ s.acc.toNat ↔ signed24 s.acc < 0)) ∧
    (f.mode = .immediate ∨ (∃ p, f.mode = .illegal p) →
      exec (.jn f) s = .next { s with rs := .halted .illegalAddressingMode })

/-- JP (R196): PC becomes `ea` exactly when ACC read as a two's-complement number is not negative, zero included; IMMEDIATE and
ILLEGAL halt with no jump. Of JN and JP with one form exactly one jumps: one of the two leaves the state as NOP does and the
other as J does (D10). -/
def Obligations.JumpIfNonNegative : Prop :=
  (∀ w : Word, w.extractLsb' 6 6 = 0x33#6 → decode OpTable.standard w = .instr (.jp (formOf w))) ∧
  ∀ (f : Form) (s : State),
    ((∀ p, f.mode ≠ .illegal p) → f.mode ≠ .immediate → ∃ ea, s.resolve f = some ea ∧
      (s.acc.toNat < 2 ^ 23 → exec (.jp f) s = .next { s with pc := BitVec.ofNat 13 ea.toNat, rs := .running }) ∧
      (2 ^ 23 ≤ s.acc.toNat → exec (.jp f) s = .next { s with rs := .running }) ∧
      (s.acc.toNat < 2 ^ 23 ↔ 0 ≤ signed24 s.acc)) ∧
    (f.mode = .immediate ∨ (∃ p, f.mode = .illegal p) →
      exec (.jp f) s = .next { s with rs := .halted .illegalAddressingMode }) ∧
    ((∀ p, f.mode ≠ .illegal p) → f.mode ≠ .immediate →
      (exec (.jn f) s = exec (.j f) s ∧ exec (.jp f) s = exec (.nop f) s) ∨
      (exec (.jn f) s = exec (.nop f) s ∧ exec (.jp f) s = exec (.j f) s))

/-! ### Frames and rejected modes -/

/-- LD, ADD, SUB, CLR, COM, AND, OR and XOR, in every form: the index registers, PC, every word of memory, the parameters and
the trace are unchanged. -/
def Obligations.AccumulatorInstructionsFrame : Prop :=
  ∀ (i : Instr) (s t : State), i.mnemonic ∈ [Mnemonic.ld, .add, .sub, .clr, .com, .and, .or, .xor] → exec i s = .next t →
    t.x = s.x ∧ t.pc = s.pc ∧ t.cfg = s.cfg ∧ t.trace = s.trace ∧ ∀ a, t.mem.read a = s.mem.read a

/-- LDX, ADDX, SUBX and CLRX, in every form: ACC, every index register but the selected one, PC, every word of memory, the
parameters and the trace are unchanged. -/
def Obligations.IndexInstructionsFrame : Prop :=
  ∀ (i : Instr) (s t : State), i.mnemonic ∈ [Mnemonic.ldx, .addx, .subx, .clrx] → exec i s = .next t →
    t.acc = s.acc ∧ (∀ k, k ≠ i.form.xsel → t.x.get k = s.x.get k) ∧
    t.pc = s.pc ∧ t.cfg = s.cfg ∧ t.trace = s.trace ∧ ∀ a, t.mem.read a = s.mem.read a

/-- ST, EM, STX and EMX, in every form, over a canonical memory: every word but the one at the effective address the resolver
gives is unchanged, all of memory in a form that is rejected; ACC is unchanged but by EM, the index registers but for the
selected one of EMX; PC, the parameters and the trace are unchanged. -/
def Obligations.StoringInstructionsFrame : Prop :=
  ∀ (i : Instr) (s t : State), i.mnemonic ∈ [Mnemonic.st, .em, .stx, .emx] → s.mem.wf = true → exec i s = .next t →
    (∀ ea, s.resolve i.form = some ea → ∀ a, a ≠ ea.toNat → t.mem.read a = s.mem.read a) ∧
    (t.rs ≠ .running → ∀ a, t.mem.read a = s.mem.read a) ∧
    (i.mnemonic ≠ .em → t.acc = s.acc) ∧
    (∀ k, i.mnemonic ≠ .emx ∨ k ≠ i.form.xsel → t.x.get k = s.x.get k) ∧
    t.pc = s.pc ∧ t.cfg = s.cfg ∧ t.trace = s.trace

/-- HALT, NOP, J, JZ, JN and JP, in every form: ACC, the index registers, every word of memory, the parameters and the trace
are unchanged, and PC too by HALT and NOP. -/
def Obligations.ControlInstructionsFrame : Prop :=
  ∀ (i : Instr) (s t : State), i.mnemonic ∈ [Mnemonic.halt, .nop, .j, .jz, .jn, .jp] → exec i s = .next t →
    t.acc = s.acc ∧ t.x = s.x ∧ t.cfg = s.cfg ∧ t.trace = s.trace ∧ (∀ a, t.mem.read a = s.mem.read a) ∧
    (i.mnemonic ∈ [Mnemonic.halt, .nop] → t.pc = s.pc)

/-- The table of legal modes (R141): an instruction other than HALT and NOP is turned away, with "illegal addressing mode" and
nothing written, exactly in mode ILLEGAL, in IMMEDIATE by a store, exchange or jump, and in the indexed and indirect modes by
LDX, STX and EMX; in every other case it goes on running. The entries beyond store, index instructions and jumps are the
decisions D12 and D14. -/
def Obligations.RejectedModesHalt : Prop :=
  ∀ (i : Instr) (s : State), i.mnemonic ∉ [Mnemonic.halt, .nop] →
    (((∃ p, i.form.mode = .illegal p) ∨
      (i.form.mode = .immediate ∧ i.mnemonic ∈ [Mnemonic.st, .em, .stx, .emx, .j, .jz, .jn, .jp]) ∨
      (i.form.mode ∈ [Mode.indexed, .indirect, .indexedIndirect] ∧ i.mnemonic ∈ [Mnemonic.ldx, .stx, .emx])) →
        exec i s = .next { s with rs := .halted .illegalAddressingMode }) ∧
    (¬((∃ p, i.form.mode = .illegal p) ∨
      (i.form.mode = .immediate ∧ i.mnemonic ∈ [Mnemonic.st, .em, .stx, .emx, .j, .jz, .jn, .jp]) ∨
      (i.form.mode ∈ [Mode.indexed, .indirect, .indexedIndirect] ∧ i.mnemonic ∈ [Mnemonic.ldx, .stx, .emx])) →
        ∃ t, exec i s = .next t ∧ t.rs = .running)

/-! ### The step -/

/-- R132, the step of a running engine. With PC beyond memory it faults and does nothing else. Otherwise the word at PC is
decoded; an instruction is executed from the state with PC advanced, an undefined opcode meets only the halt check there, and
one record is appended: the address before the advance, the word, the mnemonic, the display resolved before execution, and the
snapshot of the registers after it. What `nextPc`, `haltCheck`, the display and the snapshot give is stated in the four
statements after the next. -/
def Obligations.StepRunsTheDecodedInstruction : Prop :=
  ∀ s : State, s.rs = .running →
    (4095 < s.pc.toNat → step s = .next { s with rs := .faulted (.addressOutOfRange s.pc.toNat) }) ∧
    (s.pc.toNat ≤ 4095 →
      (∀ i, decode s.cfg.opTable (s.mem.read s.pc.toNat) = .instr i →
        ∃ t, exec i { s with pc := nextPc s.cfg.pcWrap s.pc } = .next t ∧
          step s = .next { t with trace := t.trace ++ [
            { addr := BitVec.ofNat 12 s.pc.toNat, word := s.mem.read s.pc.toNat, mnemonic := some i.mnemonic,
              display := (s.control (s.mem.read s.pc.toNat)).display, regs := t.snapshot }] }) ∧
      (∀ cat op, decode s.cfg.opTable (s.mem.read s.pc.toNat) = .undefinedOpcode cat op →
        step s = .next { s with
          pc := nextPc s.cfg.pcWrap s.pc
          rs := haltCheck none (formOf (s.mem.read s.pc.toNat)).mode .ignored
          trace := s.trace ++ [
            { addr := BitVec.ofNat 12 s.pc.toNat, word := s.mem.read s.pc.toNat, mnemonic := none,
              display := (s.control (s.mem.read s.pc.toNat)).display, regs := s.snapshot }] }))

/-- From HALTED and FAULTED there is no step: the model stops with its fault `notRunning` and no state follows (R131; D31). -/
def Obligations.NoStepAfterTheEnd : Prop :=
  ∀ s : State, (step s = .fault .notRunning ↔ s.rs ≠ .running) ∧ (s.rs ≠ .running → ∀ t, step s ≠ .next t)

/-- After a step that fetched a word PC is one more, modulo 4096 under `WRAP` and unreduced under `FAULT`, unless a jump in a
legal mode set it to its effective address (R133, R190; D17). -/
def Obligations.ProgramCounterAdvances : Prop :=
  ∀ (s t : State) (n : Nat), s.rs = .running → s.pc.toNat ≤ 4095 → step s = .next t →
    (s.cfg.pcWrap = .wrap → n = (s.pc.toNat + 1) % 4096) → (s.cfg.pcWrap = .fault → n = s.pc.toNat + 1) →
    t.pc.toNat = n ∨
    ∃ i ea, decode s.cfg.opTable (s.mem.read s.pc.toNat) = .instr i ∧ i.mnemonic ∈ [Mnemonic.j, .jz, .jn, .jp] ∧
      legalFor i.mnemonic i.form.mode = true ∧ s.resolve i.form = some ea ∧ t.pc.toNat = ea.toNat

/-- The run state after a step that fetched a word, in the order of the halt check: an ILLEGAL selector whatever the mnemonic,
then HALT, then an undefined opcode, then a mode the instruction rejects, else RUNNING (R136; the order is D15, C6). -/
def Obligations.HaltReasonOrder : Prop :=
  ∀ (s t : State), s.rs = .running → s.pc.toNat ≤ 4095 → step s = .next t →
    ((∃ p, (formOf (s.mem.read s.pc.toNat)).mode = .illegal p) → t.rs = .halted .illegalAddressingMode) ∧
    ((∀ p, (formOf (s.mem.read s.pc.toNat)).mode ≠ .illegal p) →
      (∀ cat op, decode s.cfg.opTable (s.mem.read s.pc.toNat) = .undefinedOpcode cat op →
        t.rs = .halted .undefinedOpcode) ∧
      (∀ i, decode s.cfg.opTable (s.mem.read s.pc.toNat) = .instr i →
        (i.mnemonic = .halt → t.rs = .halted .haltInstruction) ∧
        (i.mnemonic = .nop → t.rs = .running) ∧
        (i.mnemonic ∉ [Mnemonic.halt, .nop] → legalFor i.mnemonic i.form.mode = false →
          t.rs = .halted .illegalAddressingMode) ∧
        (i.mnemonic ∉ [Mnemonic.halt, .nop] → legalFor i.mnemonic i.form.mode = true → t.rs = .running)))

/-- A step that halts writes no register and no memory word, leaves PC at `Next(pc0)` and emits one record (R137, R218; D16). -/
def Obligations.HaltIsPrecise : Prop :=
  ∀ (s t : State) (r : HaltReason), step s = .next t → t.rs = .halted r →
    t.acc = s.acc ∧ t.x = s.x ∧ t.mem = s.mem ∧ t.cfg = s.cfg ∧ t.pc = nextPc s.cfg.pcWrap s.pc ∧
    t.trace.length = s.trace.length + 1

/-- Every step that fetches a word appends exactly one record: the pre-advance address, the word, the mnemonic or none for
"undefined", the display, whose forms are taken in the order of R95, and the registers after execution; a step that faults at
its fetch appends none (R95, R138, R139; D18, D19). -/
def Obligations.EachStepEmitsOneRecord : Prop :=
  ∀ (s t : State), s.rs = .running → step s = .next t →
    (4095 < s.pc.toNat → t.trace = s.trace) ∧
    (s.pc.toNat ≤ 4095 → ∃ r : TraceRecord, t.trace = s.trace ++ [r] ∧
      r.addr.toNat = s.pc.toNat ∧ r.word = s.mem.read s.pc.toNat ∧ r.regs.acc = t.acc ∧ r.regs.x = t.x ∧
      r.mnemonic = s.cfg.opTable.lookup (catOf r.word) (opOf r.word) ∧
      ((formOf r.word).mode = .immediate → r.display = .imm (opndOf r.word)) ∧
      ((formOf r.word).mode ≠ .immediate →
        (catOf r.word = 0 ∨ r.mnemonic = none → r.display = .blank) ∧
        (catOf r.word ≠ 0 → r.mnemonic ≠ none →
          (∀ p, (formOf r.word).mode = .illegal p → r.display = .error) ∧
          (∀ ea, s.resolve (formOf r.word) = some ea → r.display = .addr ea))))

/-- No step changes memory but by ST, EM, STX or EMX in a legal mode, which write one word, at the effective address resolved
before the step (R29, R41; 10_state.md section 7). -/
def Obligations.OnlyStoresWriteMemory : Prop :=
  ∀ (s t : State), step s = .next t → t.mem ≠ s.mem →
    ∃ i ea v, decode s.cfg.opTable (s.mem.read s.pc.toNat) = .instr i ∧
      i.mnemonic ∈ [Mnemonic.st, .em, .stx, .emx] ∧ legalFor i.mnemonic i.form.mode = true ∧
      s.resolve i.form = some ea ∧ t.mem = s.mem.write ea.toNat v

/-- Who writes the registers: ACC only LD, EM, ADD, SUB, CLR, COM, AND, OR and XOR, an index register only LDX, EMX, ADDX, SUBX
and CLRX and only the one xsel names; and no step changes a parameter (R7, R21, R23, R24; D6, D7; log entry 3). -/
def Obligations.RegisterWriters : Prop :=
  ∀ (s t : State), step s = .next t →
    (t.acc ≠ s.acc → ∃ i, decode s.cfg.opTable (s.mem.read s.pc.toNat) = .instr i ∧
      i.mnemonic ∈ [Mnemonic.ld, .em, .add, .sub, .clr, .com, .and, .or, .xor]) ∧
    (∀ n, t.x.get n ≠ s.x.get n → ∃ i, decode s.cfg.opTable (s.mem.read s.pc.toNat) = .instr i ∧
      i.mnemonic ∈ [Mnemonic.ldx, .emx, .addx, .subx, .clrx] ∧ i.form.xsel = n) ∧
    t.cfg = s.cfg

/-- Every step keeps a sound state sound: memory canonical and within 0..4095, PC in range, and FAULTED only under
`PC_WRAP = FAULT` by the fetch at 4096 (R25, R27, R29, R213). The canonical form is the model's own (log entry 1). -/
def Obligations.EveryStepKeepsSoundness : Prop :=
  ∀ (s t : State), s.Sound → step s = .next t → t.Sound

/-- The reset state is sound, and it is the launch of an empty object file without override under the default parameters
(R32, R62, R240; ACC's value is D33, the start address D25; that State.reset is this launch is log entry 4). -/
def Obligations.ResetIsTheEmptyLaunch : Prop :=
  State.reset.Sound ∧ launch Config.default [] none = .ok State.reset

/-- Under `PC_WRAP = WRAP` a sound running engine always makes a step, into memory, and never faults (R42, R213; D17). -/
def Obligations.WrapNeverFaults : Prop :=
  ∀ s : State, s.Sound → s.cfg.pcWrap = .wrap → s.rs = .running →
    ∃ t, step s = .next t ∧ t.pc.toNat ≤ 4095 ∧ ∀ e, t.rs ≠ .faulted e

/-- A store is seen by the next fetch: when ST, EM, STX or EMX, in a legal mode, writes the word the next step fetches, that step
runs the word stored, which is ACC for ST and EM and the index register over the word's low 12 bits for STX and EMX, while the
storing instruction itself was the word fetched before the write (R51, R245; D28, and D13 for STX and EMX). -/
def Obligations.StoreIsSeenByTheNextFetch : Prop :=
  ∀ (s t u : State) (i : Instr) (ea : Addr), s.Sound → s.rs = .running → s.pc.toNat ≤ 4095 →
    decode s.cfg.opTable (s.mem.read s.pc.toNat) = .instr i → i.mnemonic ∈ [Mnemonic.st, .em, .stx, .emx] →
    legalFor i.mnemonic i.form.mode = true → s.resolve i.form = some ea →
    step s = .next t → t.pc.toNat = ea.toNat → step t = .next u →
    (i.mnemonic ∈ [Mnemonic.st, .em] → t.mem.read t.pc.toNat = s.acc) ∧
    (i.mnemonic ∈ [Mnemonic.stx, .emx] →
      (t.mem.read t.pc.toNat).toNat = (s.x.get i.form.xsel).toNat * 4096 + (s.mem.read ea.toNat).toNat % 4096) ∧
    ∃ r₁ r₂ : TraceRecord, u.trace = s.trace ++ [r₁, r₂] ∧ r₁.word = s.mem.read s.pc.toNat ∧
      r₂.word = t.mem.read t.pc.toNat

/-- The run repeats the step while RUNNING and ends at the first state that is not: a running state's run is that of its next
state with one step of fuel less, and without fuel stands where it is; a state that is not RUNNING is the end of its own run. So
a run that has ended has ended for good, its last state has no step and more fuel changes nothing; a run without an end still
stands in a RUNNING state; and none meets a running state without a step (R131, R140, R142; D31, D34; the fuel is log entry
11). -/
def Obligations.RunEndsForGood : Prop :=
  ∀ (n : Nat) (s : State),
    (∀ t, s.rs = .running → step s = .next t → run (n + 1) s = run n t) ∧
    (s.rs = .running → run 0 s = .outOfFuel s) ∧
    (s.rs ≠ .running → run n s = .ended s) ∧
    (∀ t, run n s = .ended t → t.rs ≠ .running ∧ step t = .fault .notRunning ∧ ∀ k, run (n + k) s = .ended t) ∧
    (∀ t, run n s = .outOfFuel t → t.rs = .running) ∧
    (∀ t, run n s ≠ .stuck t)

/-! ### The object-file loader and the launch -/

/-- A line whose checksum is not 0 modulo 256 ends the load with FormatError, and a line with a checksum window that is not
hexadecimal ends it with LoadRefused, wherever the line stands and whatever follows; and a load that fails yields no image, no
start address and no state (R56, R61, R63; D21; both errors record the line's index, R211, and the host names the source
identifier). -/
def Obligations.BadChecksumFailsTheLoad : Prop :=
  (∀ (idx : Nat) (st : LoaderState) (L : List Char) (rest : List (List Char)),
    (∀ sum, checksum L = some sum → sum % 256 ≠ 0 → loadLines idx st (L :: rest) = .error (.formatError idx)) ∧
    (∀ j, j < windowCount L → hexField L (1 + 2 * j) 2 = none →
      loadLines idx st (L :: rest) = .error (.loadRefused (.line idx)))) ∧
  (∀ (lines : List (List Char)) (override : Option Nat) (e : CoreError),
    loadLines 0 LoaderState.initial lines = .error e →
      load lines override = .error e ∧ ∀ cfg, launch cfg lines override = .error e) ∧
  (∀ (lines : List (List Char)) (override : Option Nat) (e : CoreError) (cfg : Config),
    load lines override = .error e → launch cfg lines override = .error e)

/-- The checksum is the sum of the line's two-digit windows from offset 1, `floor(len/2) - 1` of them; that is n + 5 windows for
a line of n payload bytes with a terminator of one or two characters, and n + 4, one short of the checksum byte, for a line
without one (R55, R65; D20). -/
def Obligations.ChecksumSumsTheWindows : Prop :=
  (∀ (L : List Char) (bytes : List Nat), bytes.length = L.length / 2 - 1 →
    (∀ (j b : Nat), bytes[j]? = some b → hexField L (1 + 2 * j) 2 = some b) → checksum L = some bytes.sum) ∧
  (∀ (L : List Char) (n : Nat),
    (L.length = 2 * n + 12 → windowCount L = n + 5) ∧ (L.length = 2 * n + 13 → windowCount L = n + 5) ∧
    (L.length = 2 * n + 11 → windowCount L = n + 4))

/-- The record types after a valid checksum: an `01` line stops the load and nothing after it is read; an `02` line replaces the
base and the discovered start address by its payload times 16, or is refused when its payload is unreadable; a line of any other
readable type is a data record, after which the load goes on with the next line, or ends with that record's error; a line without
a readable type is refused. An input that ends without an `01` line ends the load normally (R57 to R61; D21, D24, D25, D26). -/
def Obligations.EndAndBaseRecords : Prop :=
  (∀ (idx : Nat) (st : LoaderState), loadLines idx st [] = .ok st) ∧
  ∀ (idx : Nat) (st : LoaderState) (L : List Char) (rest : List (List Char)) (sum : Nat),
    checksum L = some sum → sum % 256 = 0 →
    (hexField L 7 2 = some 1 → loadLines idx st (L :: rest) = .ok st) ∧
    (∀ v, hexField L 7 2 = some 2 → hexField L 9 4 = some v →
      loadLines idx st (L :: rest) =
        loadLines (idx + 1) { mem := st.mem, base := 16 * v, disc := 16 * v } rest) ∧
    (hexField L 7 2 = some 2 → hexField L 9 4 = none →
      loadLines idx st (L :: rest) = .error (.loadRefused (.line idx))) ∧
    (∀ t, hexField L 7 2 = some t → t ≠ 1 → t ≠ 2 →
      (∀ st', loadData idx L st = .ok st' → loadLines idx st (L :: rest) = loadLines (idx + 1) st' rest) ∧
      (∀ e, loadData idx L st = .error e → loadLines idx st (L :: rest) = .error e)) ∧
    (hexField L 7 2 = none → loadLines idx st (L :: rest) = .error (.loadRefused (.line idx)))

/-- A data record that is readable and stays within memory loads: the word at base + address + i is made of the bytes of group i
in reversed order, for each of its n/3 groups, every other word is as before, and base and start are unchanged (R59; D22). -/
def Obligations.DataRecordPlacesItsWords : Prop :=
  ∀ (idx : Nat) (L : List Char) (st : LoaderState) (n addr : Nat) (b₀ b₁ b₂ : Nat → Nat),
    st.mem.wf = true → hexField L 1 2 = some n → hexField L 3 4 = some addr → n % 3 = 0 → 9 + 2 * n ≤ L.length →
    (∀ i < n / 3, hexField L (9 + 6 * i) 2 = some (b₀ i) ∧ hexField L (11 + 6 * i) 2 = some (b₁ i) ∧
      hexField L (13 + 6 * i) 2 = some (b₂ i) ∧ st.base + addr + i ≤ 4095) →
    ∃ m, loadData idx L st = .ok { st with mem := m } ∧ m.wf = true ∧
      (∀ i < n / 3, (m.read (st.base + addr + i)).toNat = b₂ i * 65536 + b₁ i * 256 + b₀ i) ∧
      (∀ a, (∀ i < n / 3, a ≠ st.base + addr + i) → m.read a = st.mem.read a)

/-- When a data record fails, and with what. It is refused when its byte count or its address is unreadable, when the byte count
is not a multiple of 3 or the line is too short for it, and at a group that is unreadable, the groups before it being readable
and in range; it gives AddressOutOfRange at a group whose address passes 4095, that group and those before it being readable and
those before it in range (R60, R61; D21, D22, D23). That the groups are taken one by one, each read and then its address checked,
is the order of the pseudocode of R64 and the model's reading, log entry 9 (DEDUCED): R217 can be read otherwise. -/
def Obligations.DataRecordFailures : Prop :=
  ∀ (idx : Nat) (L : List Char) (st : LoaderState),
    (hexField L 1 2 = none ∨ hexField L 3 4 = none → loadData idx L st = .error (.loadRefused (.line idx))) ∧
    ∀ (n addr : Nat), hexField L 1 2 = some n → hexField L 3 4 = some addr →
      (n % 3 ≠ 0 ∨ L.length < 9 + 2 * n → loadData idx L st = .error (.loadRefused (.line idx))) ∧
      (∀ k, n % 3 = 0 → 9 + 2 * n ≤ L.length → k < n / 3 →
        (∀ i < k, (groupWord L i).isSome = true ∧ st.base + addr + i ≤ 4095) →
        (groupWord L k = none → loadData idx L st = .error (.loadRefused (.line idx))) ∧
        ((groupWord L k).isSome = true → 4095 < st.base + addr + k →
          loadData idx L st = .error (.addressOutOfRange (st.base + addr + k))))

/-- The launch after a load that ended normally: the start address is the override when given, else the discovered one; above
4095 it is refused; otherwise the engine starts sound and RUNNING with the image, PC at the start address and every register at
its start value (R32, R62, R63, R240; D25, D33). -/
def Obligations.LaunchStartState : Prop :=
  ∀ (cfg : Config) (lines : List (List Char)) (override : Option Nat) (st : LoaderState) (start : Nat),
    loadLines 0 LoaderState.initial lines = .ok st →
    (∀ v, override = some v → start = v) → (override = none → start = st.disc) →
    (4095 < start → launch cfg lines override = .error (.loadRefused (.start start))) ∧
    (start ≤ 4095 → ∃ s, launch cfg lines override = .ok s ∧ s.Sound ∧ s.rs = .running ∧ s.pc.toNat = start ∧
      s.mem = st.mem ∧ s.acc = 0 ∧ s.x.get .x0 = 0 ∧ s.x.get .x1 = 0 ∧ s.x.get .x2 = 0xFFF#12 ∧ s.x.get .x3 = 0 ∧
      s.cfg = cfg ∧ s.trace = [])

/-- The loader's round trip over the lines of the model's own writer `dataLine` (log entry 13, DESIGN CHOICE: a colon, upper-case
digits, type 00, a correct checksum, a line feed): loading the line written for some words, then reading back the target
addresses, gives exactly those words, and every other word is 0. Other lines a loader must read, with another marker, lower-case
digits or another data type, are in the statements before this one (95_test_vectors.md section 1.3, from the source's testable
properties; R54, R55, R59). -/
def Obligations.LoaderRoundTrip : Prop :=
  ∀ (addr : Nat) (ws : List Word), ws.length ≤ 85 → addr + ws.length ≤ 4096 →
    ∃ m, load [dataLine addr ws] none = .ok { mem := m, start := 0 } ∧
      (∀ i w, ws[i]? = some w → m.read (addr + i) = w) ∧
      (∀ a, a < addr ∨ addr + ws.length ≤ a → m.read a = 0)
end

