-- ==== Sys2Proof/Laws/Encoding.lean ====
section
/-! SUPPORT. The small laws of the word's fields, the tables and their inverses, which the round trips are assembled from. -/

namespace Sys2Proof

/-- The operand is the word's number divided by 4096. -/
theorem opndOf_toNat (w : Word) : (opndOf w).toNat = w.toNat / 4096 := by
  have := w.isLt
  simp only [opndOf, BitVec.extractLsb'_toNat, Nat.shiftRight_eq_div_pow]
  omega

/-- A word is the sum of its five fields at their places (R97). -/
theorem assemble_toNat (cat : BitVec 2) (op : BitVec 4) (f : Form) :
    (assemble cat op f).toNat =
      f.opnd.toNat * 2 ^ 12 + cat.toNat * 2 ^ 10 + op.toNat * 2 ^ 6 + f.mode.sel.toNat * 2 ^ 2 + f.xsel.sel.toNat := by
  have h1 := cat.isLt
  have h2 := op.isLt
  have h3 := f.mode.sel.isLt
  have h4 := f.xsel.sel.isLt
  simp only [assemble, BitVec.toNat_append]
  rw [← Nat.shiftLeft_add_eq_or_of_lt h1, ← Nat.shiftLeft_add_eq_or_of_lt h2, ← Nat.shiftLeft_add_eq_or_of_lt h3,
    ← Nat.shiftLeft_add_eq_or_of_lt h4]
  simp only [Nat.shiftLeft_eq]
  omega

@[simp] theorem opndOf_assemble (cat : BitVec 2) (op : BitVec 4) (f : Form) : opndOf (assemble cat op f) = f.opnd := by
  have h1 := cat.isLt
  have h2 := op.isLt
  have h3 := f.mode.sel.isLt
  have h4 := f.xsel.sel.isLt
  apply BitVec.eq_of_toNat_eq
  rw [opndOf_toNat, assemble_toNat]
  omega

@[simp] theorem catOf_assemble (cat : BitVec 2) (op : BitVec 4) (f : Form) : catOf (assemble cat op f) = cat := by
  have h1 := cat.isLt
  have h2 := op.isLt
  have h3 := f.mode.sel.isLt
  have h4 := f.xsel.sel.isLt
  apply BitVec.eq_of_toNat_eq
  simp only [catOf, BitVec.extractLsb'_toNat, Nat.shiftRight_eq_div_pow, assemble_toNat]
  omega

@[simp] theorem opOf_assemble (cat : BitVec 2) (op : BitVec 4) (f : Form) : opOf (assemble cat op f) = op := by
  have h2 := op.isLt
  have h3 := f.mode.sel.isLt
  have h4 := f.xsel.sel.isLt
  apply BitVec.eq_of_toNat_eq
  simp only [opOf, BitVec.extractLsb'_toNat, Nat.shiftRight_eq_div_pow, assemble_toNat]
  omega

@[simp] theorem selOf_assemble (cat : BitVec 2) (op : BitVec 4) (f : Form) : selOf (assemble cat op f) = f.mode.sel := by
  have h3 := f.mode.sel.isLt
  have h4 := f.xsel.sel.isLt
  apply BitVec.eq_of_toNat_eq
  simp only [selOf, BitVec.extractLsb'_toNat, Nat.shiftRight_eq_div_pow, assemble_toNat]
  omega

@[simp] theorem xselOf_assemble (cat : BitVec 2) (op : BitVec 4) (f : Form) : xselOf (assemble cat op f) = f.xsel.sel := by
  have h4 := f.xsel.sel.isLt
  apply BitVec.eq_of_toNat_eq
  simp only [xselOf, BitVec.extractLsb'_toNat, Nat.shiftRight_eq_div_pow, assemble_toNat]
  omega

/-- The selector table loses no bit (R84). -/
theorem sel_modeOfSel (sel : BitVec 4) : (modeOfSel sel).sel = sel := by revert sel; decide

/-- The selector table read forwards after backwards (R84). -/
theorem modeOfSel_sel {m : Mode} (h : m.wf = true) : modeOfSel m.sel = m := by
  cases m with
  | illegal sel => revert sel; decide
  | _ => rfl

/-- The selector table gives well-formed modes. -/
theorem modeOfSel_wf (sel : BitVec 4) : (modeOfSel sel).wf = true := by revert sel; decide

theorem sel_xregOfSel (x : BitVec 2) : (xregOfSel x).sel = x := by revert x; decide

@[simp] theorem xregOfSel_sel (x : XReg) : xregOfSel x.sel = x := by cases x <;> rfl

@[simp] theorem Instr.make_mnemonic (m : Mnemonic) (f : Form) : (Instr.make m f).mnemonic = m := by cases m <;> rfl

@[simp] theorem Instr.make_form (m : Mnemonic) (f : Form) : (Instr.make m f).form = f := by cases m <;> rfl

@[simp] theorem Instr.make_eta (i : Instr) : Instr.make i.mnemonic i.form = i := by cases i <;> rfl

/-- The form read back from an assembled word. -/
theorem formOf_assemble (cat : BitVec 2) (op : BitVec 4) {f : Form} (h : f.wf = true) :
    formOf (assemble cat op f) = f := by
  cases f
  simp [formOf, modeOfSel_sel h]

/-- What the decoder answers: the instruction of the cell with the word's form, or the rejection of an empty cell. -/
theorem decode_eq (t : OpTable) (w : Word) :
    decode t w = match t.lookup (catOf w) (opOf w) with
      | some m => .instr (Instr.make m (formOf w))
      | none => .undefinedOpcode (catOf w) (opOf w) := rfl

/-- A decoded instruction holds the word's form, and its mnemonic is in the word's cell. -/
theorem decode_instr {t : OpTable} {w : Word} {i : Instr} (h : decode t w = .instr i) :
    t.lookup (catOf w) (opOf w) = some i.mnemonic ∧ i.form = formOf w := by
  rw [decode_eq] at h
  split at h
  · rename_i m hm
    obtain rfl : Instr.make m (formOf w) = i := by simpa using h
    simp [hm]
  · cases h

/-- The 6-bit opcode and the two fields it joins (R83). -/
theorem opcode_fields (w : Word) :
    catOf w = (w.extractLsb' 6 6).extractLsb' 4 2 ∧ opOf w = (w.extractLsb' 6 6).extractLsb' 0 4 := by
  constructor <;> apply BitVec.eq_of_toNat_eq <;>
    simp only [catOf, opOf, BitVec.extractLsb'_toNat, Nat.shiftRight_eq_div_pow] <;> omega

/-- Every mnemonic's opcode of R87 is its cell of R86. -/
theorem lookup_opcode (m : Mnemonic) :
    OpTable.standard.lookup (m.opcode.extractLsb' 4 2) (m.opcode.extractLsb' 0 4) = some m := by cases m <;> decide

/-- Every mnemonic's cell in the default table is its opcode of R87. -/
theorem cellOf_standard (m : Mnemonic) :
    OpTable.standard.cellOf m = some (m.opcode.extractLsb' 4 2, m.opcode.extractLsb' 0 4) := by cases m <;> decide

/-- A word with a mnemonic's opcode decodes to that mnemonic with the word's form. -/
theorem decode_standard_of_opcode {w : Word} (m : Mnemonic) (h : w.extractLsb' 6 6 = m.opcode) :
    decode OpTable.standard w = .instr (Instr.make m (formOf w)) := by
  obtain ⟨hc, ho⟩ := opcode_fields w
  rw [decode_eq, hc, ho, h, lookup_opcode]

end Sys2Proof
end

