-- ==== Sys2Proof/Laws/State.lean ====
section
/-! SUPPORT. What each named update of the state does to each field, one lemma per field per update, so that no later proof
unfolds an update; and the index registers after a write. -/

namespace Sys2Proof.Machine

@[simp] theorem State.setAcc_cfg (s : State) (v : Word) : (s.setAcc v).cfg = s.cfg := rfl
@[simp] theorem State.setAcc_acc (s : State) (v : Word) : (s.setAcc v).acc = v := rfl
@[simp] theorem State.setAcc_x (s : State) (v : Word) : (s.setAcc v).x = s.x := rfl
@[simp] theorem State.setAcc_pc (s : State) (v : Word) : (s.setAcc v).pc = s.pc := rfl
@[simp] theorem State.setAcc_mem (s : State) (v : Word) : (s.setAcc v).mem = s.mem := rfl
@[simp] theorem State.setAcc_rs (s : State) (v : Word) : (s.setAcc v).rs = s.rs := rfl
@[simp] theorem State.setAcc_trace (s : State) (v : Word) : (s.setAcc v).trace = s.trace := rfl

@[simp] theorem State.setX_cfg (s : State) (n : XReg) (v : Addr) : (s.setX n v).cfg = s.cfg := rfl
@[simp] theorem State.setX_acc (s : State) (n : XReg) (v : Addr) : (s.setX n v).acc = s.acc := rfl
@[simp] theorem State.setX_x (s : State) (n : XReg) (v : Addr) : (s.setX n v).x = s.x.set n v := rfl
@[simp] theorem State.setX_pc (s : State) (n : XReg) (v : Addr) : (s.setX n v).pc = s.pc := rfl
@[simp] theorem State.setX_mem (s : State) (n : XReg) (v : Addr) : (s.setX n v).mem = s.mem := rfl
@[simp] theorem State.setX_rs (s : State) (n : XReg) (v : Addr) : (s.setX n v).rs = s.rs := rfl
@[simp] theorem State.setX_trace (s : State) (n : XReg) (v : Addr) : (s.setX n v).trace = s.trace := rfl

@[simp] theorem State.setPc_cfg (s : State) (a : Addr) : (s.setPc a).cfg = s.cfg := rfl
@[simp] theorem State.setPc_acc (s : State) (a : Addr) : (s.setPc a).acc = s.acc := rfl
@[simp] theorem State.setPc_x (s : State) (a : Addr) : (s.setPc a).x = s.x := rfl
@[simp] theorem State.setPc_pc (s : State) (a : Addr) : (s.setPc a).pc = a.setWidth 13 := rfl
@[simp] theorem State.setPc_mem (s : State) (a : Addr) : (s.setPc a).mem = s.mem := rfl
@[simp] theorem State.setPc_rs (s : State) (a : Addr) : (s.setPc a).rs = s.rs := rfl
@[simp] theorem State.setPc_trace (s : State) (a : Addr) : (s.setPc a).trace = s.trace := rfl

@[simp] theorem State.memWrite_cfg (s : State) (a : Addr) (v : Word) : (s.memWrite a v).cfg = s.cfg := rfl
@[simp] theorem State.memWrite_acc (s : State) (a : Addr) (v : Word) : (s.memWrite a v).acc = s.acc := rfl
@[simp] theorem State.memWrite_x (s : State) (a : Addr) (v : Word) : (s.memWrite a v).x = s.x := rfl
@[simp] theorem State.memWrite_pc (s : State) (a : Addr) (v : Word) : (s.memWrite a v).pc = s.pc := rfl
@[simp] theorem State.memWrite_mem (s : State) (a : Addr) (v : Word) : (s.memWrite a v).mem = s.mem.write a.toNat v := rfl
@[simp] theorem State.memWrite_rs (s : State) (a : Addr) (v : Word) : (s.memWrite a v).rs = s.rs := rfl
@[simp] theorem State.memWrite_trace (s : State) (a : Addr) (v : Word) : (s.memWrite a v).trace = s.trace := rfl

@[simp] theorem State.advance_cfg (s : State) : (s.advance).cfg = s.cfg := rfl
@[simp] theorem State.advance_acc (s : State) : (s.advance).acc = s.acc := rfl
@[simp] theorem State.advance_x (s : State) : (s.advance).x = s.x := rfl
@[simp] theorem State.advance_pc (s : State) : (s.advance).pc = nextPc s.cfg.pcWrap s.pc := rfl
@[simp] theorem State.advance_mem (s : State) : (s.advance).mem = s.mem := rfl
@[simp] theorem State.advance_rs (s : State) : (s.advance).rs = s.rs := rfl
@[simp] theorem State.advance_trace (s : State) : (s.advance).trace = s.trace := rfl

@[simp] theorem State.conclude_cfg (s : State) (m : Option Mnemonic) (mode : Mode) : (s.conclude m mode).cfg = s.cfg := rfl
@[simp] theorem State.conclude_acc (s : State) (m : Option Mnemonic) (mode : Mode) : (s.conclude m mode).acc = s.acc := rfl
@[simp] theorem State.conclude_x (s : State) (m : Option Mnemonic) (mode : Mode) : (s.conclude m mode).x = s.x := rfl
@[simp] theorem State.conclude_pc (s : State) (m : Option Mnemonic) (mode : Mode) : (s.conclude m mode).pc = s.pc := rfl
@[simp] theorem State.conclude_mem (s : State) (m : Option Mnemonic) (mode : Mode) : (s.conclude m mode).mem = s.mem := rfl
@[simp] theorem State.conclude_rs (s : State) (m : Option Mnemonic) (mode : Mode) : (s.conclude m mode).rs = haltCheck m mode (classify m mode) := rfl
@[simp] theorem State.conclude_trace (s : State) (m : Option Mnemonic) (mode : Mode) : (s.conclude m mode).trace = s.trace := rfl

@[simp] theorem State.raiseFetchFault_cfg (s : State) (e : CoreError) : (s.raiseFetchFault e).cfg = s.cfg := rfl
@[simp] theorem State.raiseFetchFault_acc (s : State) (e : CoreError) : (s.raiseFetchFault e).acc = s.acc := rfl
@[simp] theorem State.raiseFetchFault_x (s : State) (e : CoreError) : (s.raiseFetchFault e).x = s.x := rfl
@[simp] theorem State.raiseFetchFault_pc (s : State) (e : CoreError) : (s.raiseFetchFault e).pc = s.pc := rfl
@[simp] theorem State.raiseFetchFault_mem (s : State) (e : CoreError) : (s.raiseFetchFault e).mem = s.mem := rfl
@[simp] theorem State.raiseFetchFault_rs (s : State) (e : CoreError) : (s.raiseFetchFault e).rs = .faulted e := rfl
@[simp] theorem State.raiseFetchFault_trace (s : State) (e : CoreError) : (s.raiseFetchFault e).trace = s.trace := rfl

@[simp] theorem State.emit_cfg (s : State) (r : TraceRecord) : (s.emit r).cfg = s.cfg := rfl
@[simp] theorem State.emit_acc (s : State) (r : TraceRecord) : (s.emit r).acc = s.acc := rfl
@[simp] theorem State.emit_x (s : State) (r : TraceRecord) : (s.emit r).x = s.x := rfl
@[simp] theorem State.emit_pc (s : State) (r : TraceRecord) : (s.emit r).pc = s.pc := rfl
@[simp] theorem State.emit_mem (s : State) (r : TraceRecord) : (s.emit r).mem = s.mem := rfl
@[simp] theorem State.emit_rs (s : State) (r : TraceRecord) : (s.emit r).rs = s.rs := rfl
@[simp] theorem State.emit_trace (s : State) (r : TraceRecord) : (s.emit r).trace = s.trace ++ [r] := rfl

/-- The register written reads as written. -/
@[simp] theorem XRegs.get_set_same (x : XRegs) (n : XReg) (v : Addr) : (x.set n v).get n = v := by cases n <;> rfl

/-- Writing one index register leaves the others alone (R24). -/
theorem XRegs.get_set_ne (x : XRegs) {n k : XReg} (v : Addr) (h : k ≠ n) : (x.set n v).get k = x.get k := by
  cases n <;> cases k <;> first | rfl | exact absurd rfl h

/-- Writing a register twice keeps the second value. -/
@[simp] theorem XRegs.set_set (x : XRegs) (n : XReg) (u v : Addr) : (x.set n u).set n v = x.set n v := by cases n <;> rfl

/-- Writing back what a register holds changes nothing. -/
@[simp] theorem XRegs.set_get (x : XRegs) (n : XReg) : x.set n (x.get n) = x := by cases n <;> rfl

end Sys2Proof.Machine
end

