-- ==== Sys2Proof/Laws/Memory.lean ====
section
/-! SUPPORT. The laws of memory: a read after a write, and the canonical form, which every write keeps. -/

namespace Sys2Proof.Machine

/-- A canonical memory from a higher address on is canonical from a lower one on. -/
theorem Memory.wfFrom_mono {lo hi : Nat} (h : lo ≤ hi) : ∀ {m : Memory}, Memory.wfFrom hi m = true → Memory.wfFrom lo m = true
  | [], _ => rfl
  | (a, v) :: t, hm => by
    simp only [Memory.wfFrom, Bool.and_eq_true, decide_eq_true_eq] at hm ⊢
    exact ⟨⟨⟨by omega, hm.1.1.2⟩, hm.1.2⟩, hm.2⟩

/-- Below its first address a canonical memory reads 0. -/
theorem Memory.read_below {lo a : Nat} (h : a < lo) : ∀ {m : Memory}, Memory.wfFrom lo m = true → m.read a = 0#24
  | [], _ => rfl
  | (b, v) :: t, hm => by
    simp only [Memory.wfFrom, Bool.and_eq_true, decide_eq_true_eq] at hm
    have hb : b ≠ a := by omega
    simp only [Memory.read, hb, if_false]
    exact Memory.read_below (by omega) hm.2

/-- Beyond memory a canonical memory reads 0. -/
theorem Memory.read_above {a : Nat} (h : 4095 < a) : ∀ {lo : Nat} {m : Memory}, Memory.wfFrom lo m = true → m.read a = 0#24
  | _, [], _ => rfl
  | lo, (b, v) :: t, hm => by
    simp only [Memory.wfFrom, Bool.and_eq_true, decide_eq_true_eq] at hm
    have hb : b ≠ a := by omega
    simp only [Memory.read, hb, if_false]
    exact Memory.read_above h hm.2

/-- A read after a write, from any lower bound on the addresses. -/
theorem Memory.read_write_from {a : Nat} (v : Word) (c : Nat) :
    ∀ {lo : Nat} {m : Memory}, Memory.wfFrom lo m = true → (m.write a v).read c = if c = a then v else m.read c
  | _, [], _ => by
    by_cases hv : v = 0#24 <;> by_cases hc : a = c <;>
      simp [Memory.write, Memory.read, hv, hc]
    exact fun h => absurd h.symm hc
  | lo, (b, u) :: t, hm => by
    have hm' := hm
    simp only [Memory.wfFrom, Bool.and_eq_true, decide_eq_true_eq] at hm'
    have ih := Memory.read_write_from (a := a) v c hm'.2
    have below : ∀ {d}, d < b + 1 → Memory.read t d = 0#24 := fun h => Memory.read_below h hm'.2
    simp only [Memory.write]
    split
    · rename_i hab
      split
      · rename_i hv
        by_cases hc : c = a
        · have hb : b ≠ a := by omega
          simp [Memory.read, hc, hv, hb, below (show a < b + 1 by omega)]
        · simp [hc]
      · by_cases hc : c = a
        · simp [Memory.read, hc]
        · simp [Memory.read, hc, Ne.symm hc]
    · split
      · rename_i hab
        split
        · rename_i hv
          by_cases hc : c = a
          · simp [hc, hv, below (show a < b + 1 by omega)]
          · simp [Memory.read, hc, ← hab, Ne.symm hc]
        · by_cases hc : c = a
          · simp [Memory.read, hc]
          · simp [Memory.read, hc, ← hab, Ne.symm hc]
      · rename_i h1 h2
        by_cases hbc : b = c
        · have hc : c ≠ a := by omega
          simp [Memory.read, hbc, hc]
        · simp [Memory.read, hbc, ih]

/-- A read after a write: the value at the address written, the old word at every other (R48). -/
theorem Memory.read_write {m : Memory} (hm : m.wf = true) (a c : Nat) (v : Word) :
    (m.write a v).read c = if c = a then v else m.read c :=
  Memory.read_write_from v c hm

/-- A read of the address just written. -/
theorem Memory.read_write_same {m : Memory} (hm : m.wf = true) (a : Nat) (v : Word) : (m.write a v).read a = v := by
  simp [Memory.read_write hm]

/-- A read of any other address. -/
theorem Memory.read_write_ne {m : Memory} (hm : m.wf = true) {a c : Nat} (h : c ≠ a) (v : Word) :
    (m.write a v).read c = m.read c := by
  simp [Memory.read_write hm, h]

/-- A write at or above the bound keeps the canonical form, from that bound on. -/
theorem Memory.wfFrom_write {a : Nat} (ha : a ≤ 4095) (v : Word) :
    ∀ {lo : Nat} {m : Memory}, lo ≤ a → Memory.wfFrom lo m = true → Memory.wfFrom lo (m.write a v) = true
  | lo, [], hlo, _ => by
    by_cases hv : v = 0#24 <;> simp [Memory.write, Memory.wfFrom, hv, hlo, ha]
  | lo, (b, u) :: t, hlo, hm => by
    have hm' := hm
    simp only [Memory.wfFrom, Bool.and_eq_true, decide_eq_true_eq] at hm'
    obtain ⟨⟨⟨hb1, hb2⟩, hu⟩, ht⟩ := hm'
    simp only [Memory.write]
    split
    · split
      · exact hm
      · rename_i hab hv
        simp only [Memory.wfFrom, Bool.and_eq_true, decide_eq_true_eq]
        exact ⟨⟨⟨hlo, ha⟩, hv⟩, ⟨⟨by omega, hb2⟩, hu⟩, ht⟩
    · split
      · rename_i hab
        split
        · exact Memory.wfFrom_mono (by omega) ht
        · rename_i hv
          simp only [Memory.wfFrom, Bool.and_eq_true, decide_eq_true_eq]
          exact ⟨⟨⟨hlo, ha⟩, hv⟩, hab ▸ ht⟩
      · simp only [Memory.wfFrom, Bool.and_eq_true, decide_eq_true_eq]
        exact ⟨⟨⟨hb1, hb2⟩, hu⟩, Memory.wfFrom_write ha v (by omega) ht⟩

/-- Every write to 0..4095 keeps the canonical form. -/
theorem Memory.write_wf {m : Memory} (hm : m.wf = true) {a : Nat} (ha : a ≤ 4095) (v : Word) : (m.write a v).wf = true :=
  Memory.wfFrom_write ha v (Nat.zero_le a) hm

/-- Two canonical memories that read alike everywhere are equal. -/
theorem Memory.eq_of_read_eq : ∀ {lo : Nat} {m n : Memory}, Memory.wfFrom lo m = true → Memory.wfFrom lo n = true →
    (∀ a, m.read a = n.read a) → m = n
  | _, [], [], _, _, _ => rfl
  | lo, [], (b, u) :: t, _, hn, h => by
    simp only [Memory.wfFrom, Bool.and_eq_true, decide_eq_true_eq] at hn
    have := h b
    simp only [Memory.read, if_true] at this
    exact absurd this.symm hn.1.2
  | lo, (b, u) :: t, [], hm, _, h => by
    simp only [Memory.wfFrom, Bool.and_eq_true, decide_eq_true_eq] at hm
    have := h b
    simp only [Memory.read, if_true] at this
    exact absurd this hm.1.2
  | lo, (a, u) :: t, (b, v) :: r, hm, hn, h => by
    simp only [Memory.wfFrom, Bool.and_eq_true, decide_eq_true_eq] at hm hn
    have low : ∀ {d}, d < a + 1 → Memory.read t d = 0#24 := fun hd => Memory.read_below hd hm.2
    have low' : ∀ {d}, d < b + 1 → Memory.read r d = 0#24 := fun hd => Memory.read_below hd hn.2
    have hab : a = b := by
      rcases Nat.lt_trichotomy a b with hlt | heq | hgt
      · have h1 := h a
        have hne : b ≠ a := by omega
        simp only [Memory.read, if_true, hne, if_false, low' (show a < b + 1 by omega)] at h1
        exact absurd h1 hm.1.2
      · exact heq
      · have h1 := h b
        have hne : a ≠ b := by omega
        simp only [Memory.read, if_true, hne, if_false, low (show b < a + 1 by omega)] at h1
        exact absurd h1.symm hn.1.2
    subst hab
    have huv : u = v := by simpa [Memory.read] using h a
    have htr : t = r := Memory.eq_of_read_eq hm.2 hn.2 fun d => by
      by_cases hd : a = d
      · subst hd
        rw [low (Nat.lt_succ_self a), low' (Nat.lt_succ_self a)]
      · simpa [Memory.read, hd] using h d
    rw [huv, htr]

/-- Writing back the word an address held before a write restores the memory. -/
theorem Memory.write_write_back {m : Memory} (hm : m.wf = true) {a : Nat} (ha : a ≤ 4095) (v : Word) :
    (m.write a v).write a (m.read a) = m := by
  have hv := Memory.write_wf hm ha v
  refine Memory.eq_of_read_eq (Memory.write_wf hv ha _) hm fun c => ?_
  rw [Memory.read_write hv, Memory.read_write hm]
  by_cases hc : c = a <;> simp [hc]

/-- A 12-bit address lies in memory. -/
theorem addr_le (a : Addr) : a.toNat ≤ 4095 := by have := a.isLt; omega

/-- The engine's writes keep the canonical form. -/
theorem State.memWrite_wf {s : State} (h : s.mem.wf = true) (a : Addr) (v : Word) : (s.memWrite a v).mem.wf = true :=
  Memory.write_wf h (addr_le a) v

end Sys2Proof.Machine
end

