-- ==== Sys2Proof/Laws/Exec.lean ====
section
/-! SUPPORT. What resolving, executing an instruction and one step can do, said once: the lemmas later proofs cite instead of
unfolding `runInstr`, `exec` and `step`. -/

namespace Sys2Proof.Machine

/-! ### The resolver -/

/-- The resolver has a result for every mode but ILLEGAL (R110, R116). -/
theorem State.resolve_some (s : State) {f : Form} (h : ∀ p, f.mode ≠ .illegal p) : ∃ ea, s.resolve f = some ea := by
  unfold State.resolve
  cases hm : f.mode with
  | illegal p => exact absurd hm (h p)
  | _ => simp

/-- The resolver reads the parameters, the index registers and memory, and nothing else (R110). -/
theorem State.resolve_congr {s t : State} (hc : t.cfg = s.cfg) (hx : t.x = s.x) (hm : t.mem = s.mem) (f : Form) :
    t.resolve f = s.resolve f := by
  simp only [State.resolve, State.memRead, hc, hx, hm]

@[simp] theorem State.advance_resolve (s : State) (f : Form) : s.advance.resolve f = s.resolve f :=
  State.resolve_congr rfl rfl rfl f

@[simp] theorem State.advance_val (s : State) (f : Form) (ea : Addr) : s.advance.val f ea = s.val f ea := rfl

@[simp] theorem State.advance_memRead (s : State) (a : Addr) : s.advance.memRead a = s.memRead a := rfl

/-! ### Legality -/

/-- No mnemonic admits ILLEGAL (R141). -/
theorem legalFor_mapped {m : Mnemonic} {mode : Mode} (h : legalFor m mode = true) : ∀ p, mode ≠ .illegal p := by
  rintro p rfl
  cases m <;> simp [legalFor] at h

theorem isIllegalMode_eq_false {mode : Mode} (h : ∀ p, mode ≠ .illegal p) : isIllegalMode mode = false := by
  cases mode with
  | illegal p => exact absurd rfl (h p)
  | _ => rfl

/-- Class Legal is: a mnemonic other than HALT and NOP in a mode it admits (R135). -/
theorem classify_legal_iff {m : Mnemonic} {mode : Mode} :
    classify (some m) mode = .legal ↔ m ≠ .halt ∧ m ≠ .nop ∧ legalFor m mode = true := by
  cases m <;> simp [classify]

/-- A Legal instruction goes on running (R136). -/
theorem haltCheck_legal {m : Mnemonic} {mode : Mode} (h : classify (some m) mode = .legal) :
    haltCheck (some m) mode .legal = .running := by
  obtain ⟨h1, _, h3⟩ := classify_legal_iff.mp h
  simp [haltCheck, isIllegalMode_eq_false (legalFor_mapped h3), h1]

/-- A mode its mnemonic does not admit, or ILLEGAL, halts with "illegal addressing mode" (R136). -/
theorem haltCheck_rejected {m : Mnemonic} {mode : Mode} (h1 : m ≠ .halt) (h2 : m ≠ .nop) (h : legalFor m mode = false) :
    haltCheck (some m) mode (classify (some m) mode) = .halted .illegalAddressingMode := by
  have hc : classify (some m) mode = .illegal := by cases m <;> simp_all [classify]
  simp [haltCheck, hc, h1]

/-! ### Executing one instruction -/

/-- A Legal instruction does its own effect with the resolved `ea` and goes on running. -/
theorem runInstr_legal {m : Mnemonic} {f : Form} {act : Addr → State → State} {s : State} {ea : Addr}
    (h : classify (some m) f.mode = .legal) (he : s.resolve f = some ea) :
    runInstr m f act s = .next { act ea s with rs := .running } := by
  simp only [runInstr, State.perform, h, he, State.conclude, haltCheck_legal h]

/-- An instruction that is not Legal only meets the halt check (R137). -/
theorem runInstr_not_legal {m : Mnemonic} {f : Form} {act : Addr → State → State} {s : State}
    (h : classify (some m) f.mode ≠ .legal) : runInstr m f act s = .next (s.conclude (some m) f.mode) := by
  simp only [runInstr, State.perform]
  split
  · contradiction
  · rfl

/-- A mode the mnemonic rejects: the halt, and nothing else. -/
theorem runInstr_rejected {m : Mnemonic} {f : Form} {act : Addr → State → State} {s : State}
    (h1 : m ≠ .halt) (h2 : m ≠ .nop) (h : legalFor m f.mode = false) :
    runInstr m f act s = .next { s with rs := .halted .illegalAddressingMode } := by
  have hc : classify (some m) f.mode ≠ .legal := by rw [Ne, classify_legal_iff]; simp [h]
  rw [runInstr_not_legal hc, State.conclude, haltCheck_rejected h1 h2 h]

/-- Every instruction answers a next state: it is Legal and did its own effect, or it is not and only met the halt check. -/
theorem runInstr_cases {m : Mnemonic} {f : Form} {act : Addr → State → State} {s t : State}
    (h : runInstr m f act s = .next t) :
    (classify (some m) f.mode = .legal ∧ ∃ ea, s.resolve f = some ea ∧ t = { act ea s with rs := .running }) ∨
    (classify (some m) f.mode ≠ .legal ∧ t = s.conclude (some m) f.mode) := by
  by_cases hc : classify (some m) f.mode = .legal
  · obtain ⟨ea, he⟩ := s.resolve_some (legalFor_mapped (classify_legal_iff.mp hc).2.2)
    rw [runInstr_legal hc he] at h
    exact .inl ⟨hc, ea, he, by cases h; rfl⟩
  · rw [runInstr_not_legal hc] at h
    exact .inr ⟨hc, by cases h; rfl⟩

/-- The effect of each instruction when it is Legal, given its resolved `ea`. -/
def effectOf : Instr → Addr → State → State
  | .halt _, _, s | .nop _, _, s => s
  | .ld f, ea, s => s.setAcc (s.val f ea)
  | .st _, ea, s => s.memWrite ea s.acc
  | .em _, ea, s => (s.memWrite ea s.acc).setAcc (s.memRead ea)
  | .ldx f, ea, s => s.setX f.xsel (s.highVal f ea)
  | .stx f, ea, s => s.memWrite ea (withHigh12 (s.x.get f.xsel) (s.memRead ea))
  | .emx f, ea, s =>
    (s.memWrite ea (withHigh12 (s.x.get f.xsel) (s.memRead ea))).setX f.xsel (high12 (s.memRead ea))
  | .add f, ea, s => s.setAcc (s.acc + s.val f ea)
  | .sub f, ea, s => s.setAcc (s.acc - s.val f ea)
  | .clr _, _, s => s.setAcc 0
  | .com _, _, s => s.setAcc (s.acc ^^^ 0xFFFFFF)
  | .and f, ea, s => s.setAcc (s.acc &&& s.val f ea)
  | .or f, ea, s => s.setAcc (s.acc ||| s.val f ea)
  | .xor f, ea, s => s.setAcc (s.acc ^^^ s.val f ea)
  | .addx f, ea, s => s.setX f.xsel (low12 ((s.x.get f.xsel).setWidth 24 + s.val f ea))
  | .subx f, ea, s => s.setX f.xsel (low12 ((s.x.get f.xsel).setWidth 24 - s.val f ea))
  | .clrx f, _, s => s.setX f.xsel 0
  | .j _, ea, s => s.setPc ea
  | .jz _, ea, s => if isZero s.acc then s.setPc ea else s
  | .jn _, ea, s => if isNegative s.acc then s.setPc ea else s
  | .jp _, ea, s => if isNonNegative s.acc then s.setPc ea else s

/-- `exec` runs the instruction's mnemonic and form with its effect. -/
theorem exec_eq (i : Instr) (s : State) : exec i s = runInstr i.mnemonic i.form (effectOf i) s := by cases i <;> rfl

/-- Every instruction answers a next state, from every state. -/
theorem exec_next (i : Instr) (s : State) : ∃ t, exec i s = .next t := ⟨_, exec_eq i s⟩

/-- What an instruction can do, said once. -/
theorem exec_cases {i : Instr} {s t : State} (h : exec i s = .next t) :
    (classify (some i.mnemonic) i.form.mode = .legal ∧
      ∃ ea, s.resolve i.form = some ea ∧ t = { effectOf i ea s with rs := .running }) ∨
    (classify (some i.mnemonic) i.form.mode ≠ .legal ∧ t = s.conclude (some i.mnemonic) i.form.mode) :=
  runInstr_cases (exec_eq i s ▸ h)

/-- A Legal instruction answers its effect, still RUNNING. -/
theorem exec_legal {i : Instr} {s : State} {ea : Addr} (h : classify (some i.mnemonic) i.form.mode = .legal)
    (he : s.resolve i.form = some ea) : exec i s = .next { effectOf i ea s with rs := .running } := by
  rw [exec_eq]
  exact runInstr_legal h he

/-- An instruction in a mode it rejects answers the halt. -/
theorem exec_rejected {i : Instr} (s : State) (h1 : i.mnemonic ≠ .halt) (h2 : i.mnemonic ≠ .nop)
    (h : legalFor i.mnemonic i.form.mode = false) :
    exec i s = .next { s with rs := .halted .illegalAddressingMode } := by
  rw [exec_eq]
  exact runInstr_rejected h1 h2 h

/-- HALT and NOP, whose class is Ignored, only meet the halt check. -/
theorem exec_ignored {i : Instr} (s : State) (h : i.mnemonic = .halt ∨ i.mnemonic = .nop) :
    exec i s = .next (s.conclude (some i.mnemonic) i.form.mode) := by
  rw [exec_eq]
  exact runInstr_not_legal (by rw [Ne, classify_legal_iff]; tauto)

/-- No effect touches the parameters or the trace. -/
theorem effectOf_cfg_trace (i : Instr) (ea : Addr) (s : State) :
    (effectOf i ea s).cfg = s.cfg ∧ (effectOf i ea s).trace = s.trace := by
  cases i with
  | jz | jn | jp => simp only [effectOf]; split <;> exact ⟨rfl, rfl⟩
  | _ => exact ⟨rfl, rfl⟩

/-- An effect leaves memory alone or writes one word at `ea`, and only ST, EM, STX and EMX do the latter (R29). -/
theorem effectOf_mem (i : Instr) (ea : Addr) (s : State) :
    (effectOf i ea s).mem = s.mem ∨
    (i.mnemonic ∈ [Mnemonic.st, .em, .stx, .emx] ∧ ∃ v, (effectOf i ea s).mem = s.mem.write ea.toNat v) := by
  cases i with
  | st => exact .inr ⟨by simp [Instr.mnemonic], _, rfl⟩
  | em => exact .inr ⟨by simp [Instr.mnemonic], _, rfl⟩
  | stx => exact .inr ⟨by simp [Instr.mnemonic], _, rfl⟩
  | emx => exact .inr ⟨by simp [Instr.mnemonic], _, rfl⟩
  | jz | jn | jp => left; simp only [effectOf]; split <;> rfl
  | _ => exact .inl rfl

/-- An effect leaves PC alone or is a jump to `ea` (R190). -/
theorem effectOf_pc (i : Instr) (ea : Addr) (s : State) :
    (effectOf i ea s).pc = s.pc ∨
    (i.mnemonic ∈ [Mnemonic.j, .jz, .jn, .jp] ∧ (effectOf i ea s).pc = ea.setWidth 13) := by
  cases i with
  | j => exact .inr ⟨by simp [Instr.mnemonic], rfl⟩
  | jz | jn | jp =>
    simp only [effectOf]
    split
    · exact .inr ⟨by simp [Instr.mnemonic], rfl⟩
    · exact .inl rfl
  | _ => exact .inl rfl

/-- An effect leaves ACC alone, or is one of the instructions that write it (R21). -/
theorem effectOf_acc (i : Instr) (ea : Addr) (s : State) :
    (effectOf i ea s).acc = s.acc ∨ i.mnemonic ∈ [Mnemonic.ld, .em, .add, .sub, .clr, .com, .and, .or, .xor] := by
  cases i with
  | ld | em | add | sub | clr | com | and | or | xor => right; simp [Instr.mnemonic]
  | jz | jn | jp => left; simp only [effectOf]; split <;> rfl
  | _ => exact .inl rfl

/-- An effect leaves an index register alone, or is one of the instructions that write the selected one (R23). -/
theorem effectOf_x (i : Instr) (ea : Addr) (s : State) (n : XReg) :
    (effectOf i ea s).x.get n = s.x.get n ∨
    (i.mnemonic ∈ [Mnemonic.ldx, .emx, .addx, .subx, .clrx] ∧ i.form.xsel = n) := by
  have set_get : ∀ (k : XReg) (v : Addr), (s.x.set k v).get n = s.x.get n ∨ k = n := fun k v => by
    by_cases h : n = k
    · exact .inr h.symm
    · exact .inl (XRegs.get_set_ne _ _ h)
  cases i with
  | ldx f | emx f | addx f | subx f | clrx f =>
    obtain h | h := set_get f.xsel _
    · exact .inl h
    · exact .inr ⟨by simp [Instr.mnemonic], h⟩
  | jz | jn | jp => left; simp only [effectOf]; split <;> rfl
  | _ => exact .inl rfl

/-- After an instruction: the parameters and the trace are as before, and RS is what the halt check gives. -/
theorem exec_frame {i : Instr} {s t : State} (h : exec i s = .next t) :
    t.cfg = s.cfg ∧ t.trace = s.trace ∧
      t.rs = haltCheck (some i.mnemonic) i.form.mode (classify (some i.mnemonic) i.form.mode) := by
  obtain ⟨hc, ea, -, rfl⟩ | ⟨-, rfl⟩ := exec_cases h
  · have := effectOf_cfg_trace i ea s
    exact ⟨this.1, this.2, by rw [hc, haltCheck_legal hc]⟩
  · exact ⟨rfl, rfl, rfl⟩

/-! ### One step -/

/-- The fetch inside memory. -/
theorem State.fetch_ok {s : State} (h : s.pc.toNat ≤ 4095) : s.fetch = .ok (s.mem.read s.pc.toNat) := by
  simp [State.fetch, Memory.readChecked, h]

/-- The fetch beyond memory. -/
theorem State.fetch_error {s : State} (h : 4095 < s.pc.toNat) : s.fetch = .error (.addressOutOfRange s.pc.toNat) := by
  simp [State.fetch, Memory.readChecked, Nat.not_le.mpr h]

/-- A step from a state that is not running stops. -/
theorem step_not_running {s : State} (h : s.rs ≠ .running) : step s = .fault .notRunning := by
  unfold step
  split
  · contradiction
  · rfl
  · rfl

theorem step_running {s : State} (h : s.rs = .running) : step s = stepRunning s := by
  unfold step
  simp [h]

/-- What executing a decoded word answers. -/
theorem executeDecoded_cases {d : Decoded} {c : Control} {s : State} : ∃ t, executeDecoded d c s = .next t ∧
    ((∃ i, d = .instr i ∧ exec i s = .next t) ∨
     (∃ cat op, d = .undefinedOpcode cat op ∧ t = s.conclude none c.mode)) := by
  cases d with
  | instr i =>
    obtain ⟨t, ht⟩ := exec_next i s
    exact ⟨t, ht, .inl ⟨i, rfl, ht⟩⟩
  | undefinedOpcode cat op => exact ⟨_, rfl, .inr ⟨cat, op, rfl, rfl⟩⟩

/-- What a step can do, said once: a running state always answers; either the fetch faults, or the word at PC is decoded, the
advanced state executes it or halts at its undefined opcode, and the record is appended. -/
theorem step_running_cases {s : State} (h : s.rs = .running) :
    (4095 < s.pc.toNat ∧ step s = .next (s.raiseFetchFault (.addressOutOfRange s.pc.toNat))) ∨
    (s.pc.toNat ≤ 4095 ∧ ∃ t, step s = .next (t.emit (t.record s.pc (s.control (s.mem.read s.pc.toNat)))) ∧
      ((∃ i, decode s.cfg.opTable (s.mem.read s.pc.toNat) = .instr i ∧ exec i s.advance = .next t) ∨
       (∃ cat op, decode s.cfg.opTable (s.mem.read s.pc.toNat) = .undefinedOpcode cat op ∧
          t = s.advance.conclude none (formOf (s.mem.read s.pc.toNat)).mode))) := by
  rw [step_running h]
  rcases Nat.lt_or_ge 4095 s.pc.toNat with hp | hp
  · exact .inl ⟨hp, by simp only [stepRunning, State.fetch_error hp]⟩
  · obtain ⟨t, ht, hcases⟩ := executeDecoded_cases (d := decode s.cfg.opTable (s.mem.read s.pc.toNat))
      (c := s.control (s.mem.read s.pc.toNat)) (s := s.advance)
    exact .inr ⟨hp, t, by simp only [stepRunning, State.fetch_ok hp, ht, onNext], hcases⟩

end Sys2Proof.Machine
end

