-- ==== Sys2Proof/Laws/Loader.lean ====
section
/-! SUPPORT. What the loader's parts can do: the checked write, the groups of a data record, and the canonical form of the
image, which every line keeps. -/

namespace Sys2Proof.Machine

/-- The checked write answers the plain write, and only inside memory (R42). -/
theorem Memory.writeChecked_ok {m m' : Memory} {a : Nat} {v : Word} (h : m.writeChecked a v = .ok m') :
    a ≤ 4095 ∧ m' = m.write a v := by
  unfold Memory.writeChecked at h
  split at h
  · exact ⟨‹_›, by cases h; rfl⟩
  · cases h

/-- A window among the first `k` that is not hexadecimal leaves no sum (R61). -/
theorem windowSum_none {L : List Char} {j : Nat} (h : hexField L (1 + 2 * j) 2 = none) :
    ∀ {k : Nat}, j < k → windowSum L k = none
  | k + 1, hk => by
    rw [windowSum]
    obtain rfl | hlt := Nat.eq_or_lt_of_le (Nat.le_of_lt_succ hk)
    · simp [h]
    · simp [windowSum_none h hlt]

/-- The groups from `i` on as far as a readable group in range: it is written, and the rest follow (R59). -/
theorem writeGroups_succ {idx target n i : Nat} {L : List Char} {m : Memory} {w : Word} (hw : groupWord L i = some w)
    (ha : target + i ≤ 4095) :
    writeGroups idx L target (n + 1) i m = writeGroups idx L target n (i + 1) (m.write (target + i) w) := by
  simp [writeGroups, hw, Memory.writeChecked, ha]

/-- Writing groups comes to group `k` when those before it are readable and in range, and fails if that one does, whatever
memory it comes with (R60, R61). -/
theorem writeGroups_error {idx target k : Nat} {L : List Char} {e : CoreError}
    (hk : ∀ (n : Nat) (m : Memory), writeGroups idx L target (n + 1) k m = .error e) :
    ∀ {n i : Nat} {m : Memory}, i ≤ k → k < i + n →
      (∀ j, i ≤ j → j < k → (groupWord L j).isSome = true ∧ target + j ≤ 4095) →
      writeGroups idx L target n i m = .error e
  | 0, i, m, h1, h2, _ => by omega
  | n + 1, i, m, h1, h2, h => by
    obtain rfl | hlt := Nat.eq_or_lt_of_le h1
    · exact hk n m
    · obtain ⟨hs, ha⟩ := h i (Nat.le_refl i) hlt
      obtain ⟨w, hw⟩ := Option.isSome_iff_exists.mp hs
      rw [writeGroups_succ hw ha]
      exact writeGroups_error hk hlt (by omega) fun j hj => h j (by omega)

/-- Writing groups keeps the canonical form. -/
theorem writeGroups_wf {idx target : Nat} {L : List Char} : ∀ {n i : Nat} {m m' : Memory}, m.wf = true →
    writeGroups idx L target n i m = .ok m' → m'.wf = true
  | 0, _, m, m', hm, h => by cases h; exact hm
  | n + 1, i, m, m', hm, h => by
    simp only [writeGroups] at h
    split at h
    · cases h
    · split at h
      · cases h
      · rename_i hw
        obtain ⟨ha, rfl⟩ := Memory.writeChecked_ok hw
        exact writeGroups_wf (Memory.write_wf hm ha _) h

/-- A data record that loads is its groups written. -/
theorem loadData_ok {idx : Nat} {L : List Char} {st st' : LoaderState} (h : loadData idx L st = .ok st') :
    ∃ n addr m, hexField L 1 2 = some n ∧ hexField L 3 4 = some addr ∧ n % 3 = 0 ∧ 9 + 2 * n ≤ L.length ∧
      writeGroups idx L (st.base + addr) (n / 3) 0 st.mem = .ok m ∧ st' = { st with mem := m } := by
  unfold loadData at h
  split at h
  · rename_i n addr hn ha
    split at h
    · cases h
    · rename_i hc
      split at h
      · rename_i m hm
        exact ⟨n, addr, m, hn, ha, by omega, by omega, hm, by cases h; rfl⟩
      · cases h
  · cases h

/-- A base-offset record that loads sets the base and the discovered start address (R58). -/
theorem loadBase_ok {idx : Nat} {L : List Char} {st st' : LoaderState} (h : loadBase idx L st = .ok st') :
    ∃ v, hexField L 9 4 = some v ∧ st' = { st with base := v * 16, disc := v * 16 } := by
  unfold loadBase at h
  split at h
  · rename_i v hv
    exact ⟨v, hv, by cases h; rfl⟩
  · cases h

end Sys2Proof.Machine
end

