-- ==== Sys2Proof/Laws/Operands.lean ====
section
/-! SUPPORT. The parts of a word, the address sum, the operand values and the tests of the accumulator, as numbers. -/

namespace Sys2Proof.Machine

theorem low12_toNat (w : Word) : (low12 w).toNat = w.toNat % 4096 := by simp [low12]

theorem high12_toNat (w : Word) : (high12 w).toNat = w.toNat / 4096 := opndOf_toNat w

theorem withHigh12_toNat (hi : Addr) (w : Word) : (withHigh12 hi w).toNat = hi.toNat * 4096 + w.toNat % 4096 := by
  have h := (low12 w).isLt
  rw [withHigh12, BitVec.toNat_append, ← Nat.shiftLeft_add_eq_or_of_lt h, Nat.shiftLeft_eq, low12_toNat]

@[simp] theorem high12_withHigh12 (hi : Addr) (w : Word) : high12 (withHigh12 hi w) = hi := by
  have := hi.isLt
  apply BitVec.eq_of_toNat_eq
  rw [high12_toNat, withHigh12_toNat]
  omega

/-- Putting a word's own high part back over any word with its low part gives the word. -/
@[simp] theorem withHigh12_high12 (hi : Addr) (w : Word) : withHigh12 (high12 w) (withHigh12 hi w) = w := by
  have := w.isLt
  apply BitVec.eq_of_toNat_eq
  rw [withHigh12_toNat, withHigh12_toNat, high12_toNat]
  omega

/-- A 12-bit value keeps its number when it meets the 24-bit accumulator (R89). -/
theorem zext24_toNat (a : Addr) : (a.setWidth 24).toNat = a.toNat := by
  have := a.isLt
  rw [BitVec.toNat_setWidth]
  omega

/-- A 12-bit target keeps its number in PC. -/
theorem zext13_toNat (a : Addr) : (a.setWidth 13).toNat = a.toNat := by
  have := a.isLt
  rw [BitVec.toNat_setWidth]
  omega

/-- The address sum of the indexed modes (R112). -/
theorem indexedSum_toNat (e : EaMod) (a b : Addr) : (indexedSum e a b).toNat = (a.toNat + b.toNat) % eaModulus e := by
  have : (a.toNat + b.toNat) % eaModulus e < 4096 := by cases e <;> simp only [eaModulus] <;> omega
  simp only [indexedSum, BitVec.toNat_ofNat]
  omega

/-- `Val` of an IMMEDIATE operand (R118). -/
theorem State.val_immediate {f : Form} (h : f.mode = .immediate) (s : State) (ea : Addr) :
    s.val f ea = f.opnd.setWidth 24 := by
  simp only [State.val, h]

/-- `Val` of a memory operand (R118). -/
theorem State.val_memory {f : Form} (h : f.mode ≠ .immediate) (s : State) (ea : Addr) :
    s.val f ea = reduceWord s.cfg.memVal (s.memRead ea) := by
  unfold State.val
  split
  · contradiction
  · rfl

/-- `Val` is at most 0xFFF with an IMMEDIATE operand and unless `MEMVAL` is FULL24 (R118). -/
theorem State.val_le {f : Form} {s : State} (h : f.mode = .immediate ∨ s.cfg.memVal ≠ .full24) (ea : Addr) :
    (s.val f ea).toNat ≤ 0xFFF := by
  have le : ∀ a : Addr, (a.setWidth 24).toNat ≤ 0xFFF := fun a => by rw [zext24_toNat]; have := a.isLt; omega
  by_cases hm : f.mode = .immediate
  · rw [State.val_immediate hm]; exact le _
  · rw [State.val_memory hm]
    cases hv : s.cfg.memVal with
    | low12 => exact le _
    | high12 => exact le _
    | full24 => exact absurd hv (h.resolve_left hm)

/-- `Next(pc0)` under `WRAP` as a number (R133). -/
theorem nextPc_wrap_toNat (pc : BitVec 13) : (nextPc .wrap pc).toNat = (pc.toNat + 1) % 4096 := by
  simp only [nextPc, BitVec.toNat_ofNat]
  omega

/-- `Next(pc0)` under `FAULT` as a number, for a PC in memory (R133). -/
theorem nextPc_fault_toNat {pc : BitVec 13} (h : pc.toNat ≤ 4095) : (nextPc .fault pc).toNat = pc.toNat + 1 := by
  have h1 : (1 : BitVec 13).toNat = 1 := rfl
  simp only [nextPc, BitVec.toNat_add, h1]
  omega

/-- Bit 23 of the accumulator is set exactly from 2^23 on (R22). -/
theorem isNegative_iff (acc : Word) : isNegative acc = true ↔ 2 ^ 23 ≤ acc.toNat := by
  have := acc.isLt
  simp only [isNegative, ← BitVec.testBit_toNat, Nat.testBit_eq_decide_div_mod_eq, decide_eq_true_eq]
  omega

/-- The two's-complement reading of a word below and from 2^23 on (R9). -/
theorem signed24_eq (acc : Word) :
    signed24 acc = if 2 ^ 23 ≤ acc.toNat then (acc.toNat : Int) - 2 ^ 24 else (acc.toNat : Int) := by
  unfold signed24
  have := isNegative_iff acc
  simp only [isNegative] at this
  simp only [this]

theorem isZero_iff (acc : Word) : isZero acc = true ↔ acc.toNat = 0 := by
  simp only [isZero, beq_iff_eq, ← BitVec.toNat_inj, BitVec.ofNat_eq_ofNat, BitVec.toNat_ofNat, Nat.zero_mod]

theorem isNonNegative_iff (acc : Word) : isNonNegative acc = true ↔ acc.toNat < 2 ^ 23 := by
  have h := isNegative_iff acc
  simp only [isNegative] at h
  rw [isNonNegative, Bool.not_eq_true', ← Bool.not_eq_true, h]
  omega

end Sys2Proof.Machine
end

