-- ==== Sys2Proof/Laws/PerInstr.lean ====
section
/-! SUPPORT. Family EncodingLayout: where the default encoder puts each part of an instruction (30_encoding.md R81, R87, R97). -/

namespace Sys2Proof.Laws.EncodingLayout

/-- The encoded word has the instruction's opcode, operand, selector and index select at the places of R81. -/
def Statement (i : Instr) : Prop :=
  OpTable.standard.lookup (catOf (encode i)) (opOf (encode i)) = some i.mnemonic ∧
    opndOf (encode i) = i.form.opnd ∧ selOf (encode i) = i.form.mode.sel ∧ xselOf (encode i) = i.form.xsel.sel

/-- The layout holds of any instruction, by the opcode table's inverse and the laws of assembled words. -/
theorem layout (i : Instr) : Statement i := by
  simp [Statement, encode, lookup_opcode]

theorem halt (f : Form) : Statement (.halt f) := layout _
theorem nop (f : Form) : Statement (.nop f) := layout _
theorem ld (f : Form) : Statement (.ld f) := layout _
theorem st (f : Form) : Statement (.st f) := layout _
theorem em (f : Form) : Statement (.em f) := layout _
theorem ldx (f : Form) : Statement (.ldx f) := layout _
theorem stx (f : Form) : Statement (.stx f) := layout _
theorem emx (f : Form) : Statement (.emx f) := layout _
theorem add (f : Form) : Statement (.add f) := layout _
theorem sub (f : Form) : Statement (.sub f) := layout _
theorem clr (f : Form) : Statement (.clr f) := layout _
theorem com (f : Form) : Statement (.com f) := layout _
theorem and (f : Form) : Statement (.and f) := layout _
theorem or (f : Form) : Statement (.or f) := layout _
theorem xor (f : Form) : Statement (.xor f) := layout _
theorem addx (f : Form) : Statement (.addx f) := layout _
theorem subx (f : Form) : Statement (.subx f) := layout _
theorem clrx (f : Form) : Statement (.clrx f) := layout _
theorem j (f : Form) : Statement (.j f) := layout _
theorem jz (f : Form) : Statement (.jz f) := layout _
theorem jn (f : Form) : Statement (.jn f) := layout _
theorem jp (f : Form) : Statement (.jp f) := layout _

end Sys2Proof.Laws.EncodingLayout
end

