-- ==== Sys2Proof/Laws/Run.lean ====
section
/-! SUPPORT. The three cases of a run. -/

namespace Sys2Proof.Machine

/-- A state that is not running is the end of its run. -/
theorem run_ended {s : State} (h : s.rs ≠ .running) (n : Nat) : run n s = .ended s := by
  cases n <;> unfold run <;> split <;> first | contradiction | rfl

/-- Without fuel a running state has no end yet. -/
theorem run_zero {s : State} (h : s.rs = .running) : run 0 s = .outOfFuel s := by
  unfold run
  simp only [h]

/-- With fuel a running state makes its step. -/
theorem run_succ {s t : State} (h : s.rs = .running) (hs : step s = .next t) (n : Nat) : run (n + 1) s = run n t := by
  rw [run]
  simp only [h, hs]

/-- A running state always makes a step. -/
theorem step_next {s : State} (h : s.rs = .running) : ∃ t, step s = .next t := by
  obtain ⟨-, ht⟩ | ⟨-, t, ht, -⟩ := step_running_cases h <;> exact ⟨_, ht⟩

end Sys2Proof.Machine
end

