-- ==== Sys2Proof/Tests/Slice0.lean ====
section
/-! SUPPORT. Tests of one step on small states, with expected results from 95_test_vectors.md or worked out from the rules; the
decoding of words written out from the spec's encoding; and the ill-formed terms. -/

open Sys2Proof Sys2Proof.Machine

namespace Sys2Proof.Tests

/-- The next state of an outcome, if it has one. -/
def nextOf : Host.Outcome State Fault Refusal → Option State
  | .next s => some s
  | .fault _ => none
  | .refused _ => none

/-- One step from `s` with the word `w` placed at its program counter. -/
def stepWord (w : Word) (s : State) : Option State := nextOf (step (s.withFetchWord 24 w.toNat))

/-- The reset state with ACC, one index register and one memory word set. -/
def small (acc : Word) (n : XReg) (x : Addr) (a : Nat) (v : Word) : State :=
  { State.reset with acc := acc, x := XRegs.reset.set n x, mem := Memory.write [] a v }

/-! ### Ill-formed terms -/

theorem test_illegal_mode_with_mapped_selector_is_ill_formed :
    (Mode.illegal 0b0100).wf = false ∧ (Form.mk 0 (.illegal 0) .x0).wf = false ∧
      (Instr.ld ⟨0, .illegal 6, .x0⟩).wf = false := by decide

theorem test_illegal_mode_with_unmapped_selector_is_well_formed : (Instr.ld ⟨0, .illegal 7, .x0⟩).wf = true := by decide

theorem test_table_with_a_cell_filled_twice_is_ill_formed :
    OpTable.wf [⟨1, 0, .ld⟩, ⟨1, 0, .st⟩] = false ∧
      ({ Config.default with opTable := [⟨1, 0, .ld⟩, ⟨1, 0, .st⟩] } : Config).wf = false := by decide

/-! ### Decoding words written out field by field: operand, category, operation, selector, index select -/

theorem test_decode_category_0 :
    decode OpTable.standard 0b000000000000_00_0000_0000_00#24 = .instr (.halt ⟨0, .direct, .x0⟩) ∧
    decode OpTable.standard 0b000100100011_00_0001_0000_00#24 = .instr (.nop ⟨0x123, .direct, .x0⟩) := by decide

theorem test_decode_category_1 :
    decode OpTable.standard 0b000100000000_01_0000_0010_01#24 = .instr (.ld ⟨0x100, .indexed, .x1⟩) ∧
    decode OpTable.standard 0b001000000000_01_0001_0000_00#24 = .instr (.st ⟨0x200, .direct, .x0⟩) ∧
    decode OpTable.standard 0b000001000000_01_0010_0000_00#24 = .instr (.em ⟨0x040, .direct, .x0⟩) ∧
    decode OpTable.standard 0b000000010000_01_1000_0001_01#24 = .instr (.ldx ⟨0x010, .immediate, .x1⟩) ∧
    decode OpTable.standard 0b000001010001_01_1001_0000_11#24 = .instr (.stx ⟨0x051, .direct, .x3⟩) ∧
    decode OpTable.standard 0b000001010010_01_1010_0000_10#24 = .instr (.emx ⟨0x052, .direct, .x2⟩) := by decide

theorem test_decode_category_2 :
    decode OpTable.standard 0b000000000011_10_0000_0001_00#24 = .instr (.add ⟨3, .immediate, .x0⟩) ∧
    decode OpTable.standard 0b000000000001_10_0001_0001_00#24 = .instr (.sub ⟨1, .immediate, .x0⟩) ∧
    decode OpTable.standard 0b000000000000_10_0010_0000_00#24 = .instr (.clr ⟨0, .direct, .x0⟩) ∧
    decode OpTable.standard 0b000000000000_10_0011_0000_00#24 = .instr (.com ⟨0, .direct, .x0⟩) ∧
    decode OpTable.standard 0b000011110000_10_0100_0001_00#24 = .instr (.and ⟨0x0F0, .immediate, .x0⟩) ∧
    decode OpTable.standard 0b000000001111_10_0101_0001_00#24 = .instr (.or ⟨0x00F, .immediate, .x0⟩) ∧
    decode OpTable.standard 0b111111111111_10_0110_0001_00#24 = .instr (.xor ⟨0xFFF, .immediate, .x0⟩) ∧
    decode OpTable.standard 0b000000000001_10_1000_0001_01#24 = .instr (.addx ⟨1, .immediate, .x1⟩) ∧
    decode OpTable.standard 0b000000000001_10_1001_0001_00#24 = .instr (.subx ⟨1, .immediate, .x0⟩) ∧
    decode OpTable.standard 0b000000000000_10_1010_0000_01#24 = .instr (.clrx ⟨0, .direct, .x1⟩) := by decide

theorem test_decode_category_3 :
    decode OpTable.standard 0b000100000000_11_0000_0000_00#24 = .instr (.j ⟨0x100, .direct, .x0⟩) ∧
    decode OpTable.standard 0b000000000111_11_0001_0000_00#24 = .instr (.jz ⟨0x007, .direct, .x0⟩) ∧
    decode OpTable.standard 0b000000100000_11_0010_0100_00#24 = .instr (.jn ⟨0x020, .indirect, .x0⟩) ∧
    decode OpTable.standard 0b000000000101_11_0011_0110_10#24 = .instr (.jp ⟨0x005, .indexedIndirect, .x2⟩) := by decide

theorem test_decode_undefined :
    decode OpTable.standard 0x0004C0 = .undefinedOpcode 1 3 ∧ decode OpTable.standard 0x000FC0 = .undefinedOpcode 3 15 ∧
      decodeTableWord 24 0x000080 = none := by decide

theorem test_encode_examples :
    encode (.ld ⟨5, .immediate, .x0⟩) = 0x005404#24 ∧ encode (.add ⟨3, .immediate, .x0⟩) = 0x003804#24 ∧
      encode (.jn ⟨0x020, .indirect, .x0⟩) = 0x020C90#24 := by decide

/-! ### Effective addresses (95_test_vectors.md 2.2) -/

theorem test_resolve_indexed_wraps :
    (stepWord 0x00140A State.reset).map (fun s => s.trace.map (·.display)) = some [.addr 0x000] := by decide

theorem test_resolve_indexed_modulo_4095 :
    indexedSum .mod4095 0x001 0xFFF = 0x001 ∧ indexedSum .mod4095 0xFFF 0x005 = 0x005 := by decide

theorem test_resolve_indexed_indirect :
    (small 0 .x3 2 0x022 0x7FF000).resolve ⟨0x020, .indexedIndirect, .x3⟩ = some 0x7FF := by decide

theorem test_memval_parts :
    reduceWord .low12 0x123456 = 0x000456 ∧ reduceWord .high12 0x123456 = 0x000123 ∧
      reduceWord .full24 0x123456 = 0x123456 := by decide

/-! ### One step per instruction (95_test_vectors.md 1.4, 2.4, 2.5, 2.6) -/

theorem test_halt : (stepWord 0x00F000 State.reset).map (fun s => (s.rs, s.pc)) =
    some (.halted .haltInstruction, 1) := by decide
theorem test_halt_illegal_selector : (stepWord 0x00000C State.reset).map (fun s => (s.rs, s.trace.map (·.display))) =
    some (.halted .illegalAddressingMode, [.blank]) := by decide
theorem test_nop : (stepWord 0x000040 { State.reset with pc := 0x010 }).map (fun s => (s.rs, s.pc)) =
    some (.running, 0x011) := by decide
theorem test_nop_illegal_selector : (stepWord 0x00004C State.reset).map (·.rs) =
    some (.halted .illegalAddressingMode) := by decide
theorem test_ld_low12 : (stepWord 0x050400 (small 0 .x0 0 0x050 0xFFFFFF)).map (·.acc) = some 0x000FFF := by decide
theorem test_st_indexed_wraps : (stepWord 0x03044A (small 0x123456 .x2 0xFFF 0 0)).map (fun s => s.mem.read 0x02F) =
    some 0x123456 := by decide
theorem test_st_immediate_rejected : (stepWord 0x030444 (small 0x123456 .x0 0 0 0)).map (fun s => (s.rs, s.pc, s.mem.read 0x030)) =
    some (.halted .illegalAddressingMode, 1, 0) := by decide
theorem test_em : (stepWord 0x040480 (small 0 .x0 0 0x040 0x123456)).map (fun s => (s.acc, s.mem.read 0x040)) =
    some (0x123456, 0) := by decide
theorem test_ldx_direct : (stepWord 0x050603 (small 0 .x0 0 0x050 0xABC123)).map (·.x.x3) = some 0xABC := by decide
theorem test_ldx_indexed_rejected : (stepWord 0x050609 State.reset).map (fun s => (s.rs, s.x.x1)) =
    some (.halted .illegalAddressingMode, 0) := by decide
theorem test_stx : (stepWord 0x051643 (small 0 .x3 0xABC 0x051 0x000777)).map (fun s => s.mem.read 0x051) =
    some 0xABC777 := by decide
theorem test_emx : (stepWord 0x052682 (small 0 .x2 0xFFF 0x052 0x123456)).map (fun s => (s.x.x2, s.mem.read 0x052)) =
    some (0x123, 0xFFF456) := by decide
theorem test_emx_indirect_rejected : (stepWord 0x052692 (small 0 .x0 0 0x052 0x060000)).map (fun s => (s.rs, s.mem.read 0x052)) =
    some (.halted .illegalAddressingMode, 0x060000) := by decide
theorem test_add_wraps : (stepWord 0x001804 (small 0xFFFFFF .x0 0 0 0)).map (·.acc) = some 0 := by decide
theorem test_add_illegal_selector : (stepWord 0x00083C (small 5 .x0 0 0 0)).map (fun s => (s.rs, s.acc, s.trace.map (·.display))) =
    some (.halted .illegalAddressingMode, 5, [.error]) := by decide
theorem test_sub_borrows : (stepWord 0x001844 State.reset).map (·.acc) = some 0xFFFFFF := by decide
theorem test_clr : (stepWord 0x000880 (small 0x123456 .x0 0 0 0)).map (·.acc) = some 0 := by decide
theorem test_com : (stepWord 0x0008C0 (small 0x123456 .x0 0 0 0)).map (·.acc) = some 0xEDCBA9 := by decide
theorem test_and : (stepWord 0x0F0904 (small 0x123456 .x0 0 0 0)).map (·.acc) = some 0x000050 := by decide
theorem test_or : (stepWord 0x00F944 (small 0x123450 .x0 0 0 0)).map (·.acc) = some 0x12345F := by decide
theorem test_xor : (stepWord 0xFFF984 (small 0x123456 .x0 0 0 0)).map (·.acc) = some 0x123BA9 := by decide
theorem test_addx_wraps : (stepWord 0x001A06 State.reset).map (·.x.x2) = some 0 := by decide
theorem test_addx_indexed_by_itself : (stepWord 0x100A09 (small 0 .x1 0x010 0x110 0x000005)).map (·.x.x1) = some 0x015 := by decide
theorem test_subx_borrows : (stepWord 0x050A43 (small 0 .x3 4 0x050 0xFFF007)).map (·.x.x3) = some 0xFFD := by decide
theorem test_clrx : (stepWord 0x000A82 State.reset).map (·.x.x2) = some 0 := by decide
theorem test_j_indirect : (stepWord 0x020C10 (small 0 .x0 0 0x020 0xABC123)).map (·.pc) = some 0xABC := by decide
theorem test_j_immediate_rejected : (stepWord 0x005C04 State.reset).map (fun s => (s.rs, s.pc, s.trace.map (·.display))) =
    some (.halted .illegalAddressingMode, 1, [.imm 5]) := by decide
theorem test_jz : (stepWord 0x100C40 State.reset).map (·.pc) = some 0x100 ∧
    (stepWord 0x100C40 (small 0x800000 .x0 0 0 0)).map (·.pc) = some 1 := by decide
theorem test_jn : (stepWord 0x100C80 (small 0x800000 .x0 0 0 0)).map (·.pc) = some 0x100 ∧
    (stepWord 0x100C80 (small 0x7FFFFF .x0 0 0 0)).map (·.pc) = some 1 := by decide
theorem test_jp : (stepWord 0x005CCA State.reset).map (·.pc) = some 0x004 ∧
    (stepWord 0x100CC0 (small 0x800000 .x0 0 0 0)).map (·.pc) = some 1 := by decide

/-! ### The step, errors and the loader (95_test_vectors.md 2.1, 2.7, 2.8) -/

theorem test_undefined_opcode : (stepWord 0x0004C0 State.reset).map (fun s => (s.rs, s.pc)) =
    some (.halted .undefinedOpcode, 1) ∧
    (stepWord 0x0000BC State.reset).map (·.rs) = some (.halted .illegalAddressingMode) := by decide

theorem test_pc_wraps : (stepWord 0x000040 { State.reset with pc := 0xFFF }).map (·.pc) = some 0 := by decide

/-- The reset state under `PC_WRAP = FAULT` with PC at 0xFFF. -/
def atTheTop : State := { State.reset with cfg := { Config.default with pcWrap := .fault }, pc := 0xFFF }

theorem test_pc_fault : (stepWord 0x000040 atTheTop).map (fun s => (s.pc, s.rs)) = some (0x1000, .running) ∧
    (nextOf (step { atTheTop with pc := 0x1000 })).map (fun s => (s.rs, s.trace)) =
      some (.faulted (.addressOutOfRange 0x1000), []) := by decide

theorem test_trace_record : (stepWord 0x005404 State.reset).map (·.trace) =
    some [⟨0, 0x005404, some .ld, .imm 5, ⟨5, XRegs.reset⟩⟩] := by decide

theorem test_reasons_and_codes :
    [HaltReason.haltInstruction, .undefinedOpcode, .illegalAddressingMode].map HaltReason.text =
      ["halt instruction executed", "undefined opcode", "illegal addressing mode"] ∧
    [CoreError.formatError 0, .addressOutOfRange 0, .undefinedOpcode, .illegalAddressingMode, .loadRefused (.line 0)].map
      CoreError.code = [0, 1, 2, 3, 4] ∧
    HaltReason.undefinedOpcode.error = some .undefinedOpcode := by decide

theorem test_load_lower_case : load [":03002000efcdab76\n".toList, ":00000001FF\n".toList] none =
    .ok ⟨[(0x020, 0xABCDEF)], 0⟩ := by decide
theorem test_load_without_terminator : load [":00000001FF".toList] none = .error (.formatError 0) ∧
    load [":00000001FF\r\n".toList] none = .ok ⟨[], 0⟩ := by decide
theorem test_load_beyond_memory : load [":060FFF00010000020000E9\n".toList] none = .error (.addressOutOfRange 0x1000) := by decide
theorem test_load_refused : load [":0400100001020304E2\n".toList] none = .error (.loadRefused (.line 0)) ∧
    load ["\n".toList] none = .error (.loadRefused (.line 0)) ∧
    load [":0G0000010F\n".toList] none = .error (.loadRefused (.line 0)) := by decide
theorem test_load_start : load [":020000020100FB\n".toList] none = .error (.loadRefused (.start 0x1000)) ∧
    load [":020000020100FB\n".toList] (some 0x010) = .ok ⟨[], 0x010⟩ := by decide
theorem test_load_second_base_replaces :
    load [":020000020010EC\n".toList, ":020000020020DC\n".toList, ":03000100090000F3\n".toList] none =
      .ok ⟨[(0x201, 9)], 0x200⟩ := by decide
theorem test_data_line : dataLine 0x010 [0x123456] = ":0300100056341251\n".toList := by decide

theorem test_table_words_run : decodeTableWord 24 0x000640 = some (.stx ⟨0, .direct, .x0⟩) ∧
    (nextOf (step (State.reset.withFetchWord 24 0x000640))).map (·.rs) = some .running := by decide

end Sys2Proof.Tests
end

