-- ==== Sys2Proof/Tests/Witness.lean ====
section
/-! SUPPORT. For each statement with hypotheses, concrete states and operands that meet them, clause by clause, at the boundary
values of the clause: witness_<statement>. -/

open Sys2Proof Sys2Proof.Machine

namespace Sys2Proof.Tests

/-- One form in each mode, over operand `a` and register X1. -/
def formIn (mode : Mode) (a : Addr) : Form := ⟨a, mode, .x1⟩

/-- The reset state with the word `w` at its PC and ACC given. -/
def atWord (w : Word) (acc : Word) : State := { State.reset.withFetchWord 24 w.toNat with acc := acc }

/-- The five mapped modes and the smallest and largest unmapped selector: the mode hypotheses of the instruction statements. -/
theorem witness_modes :
    (∀ p, (formIn .direct 0).mode ≠ .illegal p) ∧ (∀ p, (formIn .indexed 0xFFF).mode ≠ .illegal p) ∧
    (∀ p, (formIn .indirect 0xFFF).mode ≠ .illegal p) ∧ (∀ p, (formIn .indexedIndirect 0).mode ≠ .illegal p) ∧
    (∀ p, (formIn .immediate 0xFFF).mode ≠ .illegal p) ∧
    (∃ p, (formIn (.illegal 3) 0).mode = .illegal p) ∧ (∃ p, (formIn (.illegal 15) 0).mode = .illegal p) := by decide

theorem witness_DecodeOfEncodeIsTheInstruction :
    OpTable.wf [⟨3, 15, .emx⟩] = true ∧ (Instr.emx ⟨0xFFF, .illegal 15, .x3⟩).wf = true ∧
      encodeIn [⟨3, 15, .emx⟩] (.emx ⟨0xFFF, .illegal 15, .x3⟩) = some 0xFFFFFF := by decide

theorem witness_EncodeOfDecodeIsTheWord :
    decode OpTable.standard 0xFFFCFF = .instr (.jp ⟨0xFFF, .illegal 15, .x3⟩) := by decide

/-- Words with selectors 0, 1, 2, 4, 6 and the unmapped 3 and 15, and with index selects 0 to 3: SelectorGivesTheMode and
DecodeReadsTheFields. -/
theorem witness_DecodedWords :
    decode OpTable.standard 0x000400 = .instr (.ld ⟨0, .direct, .x0⟩) ∧
    decode OpTable.standard 0x000405 = .instr (.ld ⟨0, .immediate, .x1⟩) ∧
    decode OpTable.standard 0x00040A = .instr (.ld ⟨0, .indexed, .x2⟩) ∧
    decode OpTable.standard 0x000413 = .instr (.ld ⟨0, .indirect, .x3⟩) ∧
    decode OpTable.standard 0xFFF418 = .instr (.ld ⟨0xFFF, .indexedIndirect, .x0⟩) ∧
    decode OpTable.standard 0x00040C = .instr (.ld ⟨0, .illegal 3, .x0⟩) ∧
    decode OpTable.standard 0x00043C = .instr (.ld ⟨0, .illegal 15, .x0⟩) := by decide

theorem witness_UndefinedOpcodeHalts :
    OpTable.standard.lookup (catOf 0x000FC0) (opOf 0x000FC0) = none ∧ (atWord 0x000FC0 0).rs = .running ∧
      (atWord 0x000FC0 0).pc.toNat ≤ 4095 ∧ (atWord 0x000FC0 0).mem.read 0 = 0x000FC0 ∧
      (atWord 0x000FC0 0).cfg.opTable = OpTable.standard ∧
      ∀ p, (formOf 0x000FC0).mode ≠ .illegal p := by decide

theorem witness_PlainModesResolve :
    (Instr.st (formIn .immediate 5)).form = formIn .immediate 5 ∧
      (Instr.jp (formIn .immediate 5)).mnemonic ∈ [Mnemonic.st, .em, .stx, .emx, .j, .jz, .jn, .jp] := by decide

/-- Both moduli, in both indexed modes: IndexedModesResolve and IndexChangesTheAddress. -/
theorem witness_IndexedModes :
    State.reset.cfg.eaMod = .mod4096 ∧ (formIn .indexed 0xFFF).mode = .indexed ∧
    (formIn .indexedIndirect 0xFFF).mode = .indexedIndirect ∧
    ({ State.reset with cfg := { Config.default with eaMod := .mod4095 } } : State).cfg.eaMod = .mod4095 ∧
    (small 0 .x1 1 0 0).x.get .x1 ≠ State.reset.x.get .x1 := by decide

theorem witness_OperandValues :
    (formIn .immediate 0xFFF).mode = .immediate ∧ (formIn .direct 0xFFF).mode ≠ .immediate ∧
    Config.default.memVal = .low12 ∧ ({ Config.default with memVal := .high12 } : Config).memVal = .high12 ∧
    ({ Config.default with memVal := .full24 } : Config).memVal = .full24 := by decide

/-- A word of each opcode with every other field full: the encoding clause of each instruction statement. -/
theorem witness_opcodes :
    [0xFFF03F, 0xFFF07F, 0xFFF43F, 0xFFF47F, 0xFFF4BF, 0xFFF63F, 0xFFF67F, 0xFFF6BF, 0xFFF83F, 0xFFF87F, 0xFFF8BF,
      0xFFF8FF, 0xFFF93F, 0xFFF97F, 0xFFF9BF, 0xFFFA3F, 0xFFFA7F, 0xFFFABF, 0xFFFC3F, 0xFFFC7F, 0xFFFCBF, 0xFFFCFF].map
      (fun w : Word => w.extractLsb' 6 6) =
    [0x00, 0x01, 0x10, 0x11, 0x12, 0x18, 0x19, 0x1A, 0x20, 0x21, 0x22, 0x23, 0x24, 0x25, 0x26, 0x28, 0x29, 0x2A, 0x30, 0x31,
      0x32, 0x33] := by decide

/-- The accumulator tests at their boundaries, and the canonical memories: StStoresTheAccumulator, EmExchangesTheAccumulator,
StxStoresTheIndexRegister, EmxExchangesTheIndexRegister, JumpIfZero, JumpIfNegative, JumpIfNonNegative. -/
theorem witness_accumulators_and_memories :
    (small 0xFFF .x0 0 0xFFF 0xFFFFFF).mem.wf = true ∧ (small 0x1000 .x0 0 0 1).mem.wf = true ∧
    State.reset.cfg.memVal = .low12 ∧ (small 0 .x0 0 0 0).acc.toNat = 0 ∧ (small 1 .x0 0 0 0).acc.toNat ≠ 0 ∧
    2 ^ 23 ≤ (small 0x800000 .x0 0 0 0).acc.toNat ∧ (small 0x7FFFFF .x0 0 0 0).acc.toNat < 2 ^ 23 := by decide

theorem witness_HaltEndsTheRun :
    (atWord 0xFFF000 0).rs = .running ∧ (atWord 0xFFF000 0).pc.toNat ≤ 4095 ∧
      decode (atWord 0xFFF000 0).cfg.opTable ((atWord 0xFFF000 0).mem.read 0) = .instr (.halt ⟨0xFFF, .direct, .x0⟩) := by
  decide

theorem witness_JumpSetsTheProgramCounter :
    (small 0 .x2 0xFFF 0 0).x.get .x2 = 0xFFF#12 ∧ State.reset.cfg.eaMod = .mod4096 ∧
    (atWord 0x000C00 0).rs = .running ∧ (atWord 0x000C00 0).pc.toNat = (0 : Addr).toNat ∧
      decode (atWord 0x000C00 0).cfg.opTable ((atWord 0x000C00 0).mem.read 0) = .instr (.j ⟨0, .direct, .x0⟩) := by decide

/-- One instruction of each frame answers a next state; the rejected form of a store is not RUNNING. -/
theorem witness_frames :
    (Instr.ld (formIn .direct 5)).mnemonic ∈ [Mnemonic.ld, .add, .sub, .clr, .com, .and, .or, .xor] ∧
    (Instr.clrx (formIn .direct 5)).mnemonic ∈ [Mnemonic.ldx, .addx, .subx, .clrx] ∧
    (Instr.st (formIn .direct 5)).mnemonic ∈ [Mnemonic.st, .em, .stx, .emx] ∧
    (Instr.jz (formIn .direct 5)).mnemonic ∈ [Mnemonic.halt, .nop, .j, .jz, .jn, .jp] ∧
    State.reset.mem.wf = true ∧ State.reset.resolve (formIn .direct 5) = some 5 ∧ (6 : Nat) ≠ (5 : Addr).toNat ∧
    (nextOf (exec (.ld (formIn .direct 5)) State.reset)).isSome = true ∧
    (nextOf (exec (.clrx (formIn .direct 5)) State.reset)).isSome = true ∧
    (nextOf (exec (.jz (formIn .direct 5)) State.reset)).isSome = true ∧
    (nextOf (exec (.st (formIn .immediate 5)) State.reset)).map (·.rs) = some (.halted .illegalAddressingMode) := by decide

theorem witness_RejectedModesHalt :
    (Instr.clr (formIn (.illegal 15) 0)).mnemonic ∉ [Mnemonic.halt, .nop] ∧
    (Instr.em (formIn .immediate 0)).mnemonic ∈ [Mnemonic.st, .em, .stx, .emx, .j, .jz, .jn, .jp] ∧
    (Instr.ldx (formIn .indexedIndirect 0)).form.mode ∈ [Mode.indexed, .indirect, .indexedIndirect] ∧
    (Instr.ldx (formIn .indexedIndirect 0)).mnemonic ∈ [Mnemonic.ldx, .stx, .emx] ∧
    (Instr.ldx (formIn .immediate 0)).mnemonic ∉ [Mnemonic.st, .em, .stx, .emx, .j, .jz, .jn, .jp] := by decide

/-- A step that fetches an instruction, one that fetches an undefined opcode, one from the last word, one that faults at 4096
and states that have ended: StepRunsTheDecodedInstruction, NoStepAfterTheEnd, ProgramCounterAdvances, EachStepEmitsOneRecord. -/
theorem witness_steps :
    (atWord 0x005404 0).rs = .running ∧ (atWord 0x005404 0).pc.toNat ≤ 4095 ∧
    decode (atWord 0x005404 0).cfg.opTable ((atWord 0x005404 0).mem.read 0) = .instr (.ld ⟨5, .immediate, .x0⟩) ∧
    decode (atWord 0x000080 0).cfg.opTable ((atWord 0x000080 0).mem.read 0) = .undefinedOpcode 0 2 ∧
    atTheTop.rs = .running ∧ atTheTop.pc.toNat ≤ 4095 ∧ (nextOf (step atTheTop)).isSome = true ∧
    4095 < ({ atTheTop with pc := 0x1000 } : State).pc.toNat ∧
    (nextOf (step { atTheTop with pc := 0x1000 })).isSome = true ∧
    ({ State.reset with rs := .halted .haltInstruction } : State).rs ≠ .running ∧
    ({ State.reset with rs := .faulted (.addressOutOfRange 4096) } : State).rs ≠ .running := by decide

/-- HALT, NOP, an undefined opcode, a rejected and an admitted mode, with mapped and unmapped selectors, and a halting step:
HaltReasonOrder, HaltIsPrecise. -/
theorem witness_halts :
    [0x000000, 0x00000C, 0x000040, 0x0004C0, 0x0004FC, 0x030444, 0x200440].map (fun w => (stepWord w State.reset).map (·.rs)) =
    [some (.halted .haltInstruction), some (.halted .illegalAddressingMode), some .running, some (.halted .undefinedOpcode),
      some (.halted .illegalAddressingMode), some (.halted .illegalAddressingMode), some .running] := by decide

/-- Steps that change memory, ACC and an index register: OnlyStoresWriteMemory, RegisterWriters. -/
theorem witness_writers :
    (stepWord 0xFFF440 (small 7 .x0 0 0 0)).map (fun s => s.mem.read 0xFFF) = some 7 ∧
    (stepWord 0x005404 State.reset).map (·.acc) = some 5 ∧ (stepWord 0x000A82 State.reset).map (fun s => s.x.get .x2) = some 0 := by
  decide

/-- Sound states of each kind that step: EveryStepKeepsSoundness, WrapNeverFaults. -/
theorem witness_sound_states :
    (atWord 0x005404 0).Sound ∧ (atWord 0x005404 0).cfg.pcWrap = .wrap ∧ (nextOf (step (atWord 0x005404 0))).isSome = true ∧
    ({ atTheTop with pc := 0x1000 } : State).Sound ∧ (nextOf (step { atTheTop with pc := 0x1000 })).isSome = true ∧
    ({ State.reset with pc := 0xFFF } : State).Sound := by decide

/-- ST, EM, STX and EMX to the very next address, over a word whose low 12 bits are NOP, with ACC holding NOP:
StoreIsSeenByTheNextFetch. -/
theorem witness_StoreIsSeenByTheNextFetch :
    (atWord 0x001440 0x000040).Sound ∧ (atWord 0x001440 0x000040).rs = .running ∧
    decode (atWord 0x001440 0x000040).cfg.opTable ((atWord 0x001440 0x000040).mem.read 0) =
      .instr (.st ⟨1, .direct, .x0⟩) ∧
    (atWord 0x001440 0x000040).resolve ⟨1, .direct, .x0⟩ = some 1 ∧
    ((nextOf (step (atWord 0x001440 0x000040))).bind fun t => (nextOf (step t)).map fun u => (t.pc.toNat, u.trace.length)) =
      some (1, 2) ∧
    [0x001480, 0x001641, 0x001682].map (fun w => (stepWord w (small 0x000040 .x1 0xFFF 1 0xABC040)).bind fun t =>
      (nextOf (step t)).map fun u => (t.pc.toNat, t.mem.read 1, u.trace.length)) =
      [some (1, 0x000040, 2), some (1, 0xFFF040, 2), some (1, 0xFFF040, 2)] ∧
    [0x001480, 0x001641, 0x001682].map (decode OpTable.standard) =
      [.instr (.em ⟨1, .direct, .x0⟩), .instr (.stx ⟨1, .direct, .x1⟩), .instr (.emx ⟨1, .direct, .x2⟩)] ∧
    (small 0x000040 .x1 0xFFF 1 0xABC040).Sound := by decide

/-- A state that steps, one that has ended, a run that ends and one that does not: RunEndsForGood. -/
theorem witness_RunEndsForGood :
    (atWord 0x000000 0).rs = .running ∧ (nextOf (step (atWord 0x000000 0))).isSome = true ∧
    ({ State.reset with rs := .halted .haltInstruction } : State).rs ≠ .running ∧
    (∃ t, run 1 (atWord 0x000000 0) = .ended t) ∧ (∃ t, run 3 (atWord 0x000C00 0) = .outOfFuel t) := by
  exact ⟨rfl, rfl, by decide, ⟨_, rfl⟩, ⟨_, rfl⟩⟩

/-- A line with a bad checksum, lines whose first and whose last window is not hexadecimal, and a load that fails:
BadChecksumFailsTheLoad. -/
theorem witness_BadChecksumFailsTheLoad :
    checksum ":0300100057341251\n".toList = some 257 ∧
    0 < windowCount ":0G000001FF\n".toList ∧ hexField ":0G000001FF\n".toList (1 + 2 * 0) 2 = none ∧
    4 < windowCount ":00000001FG\n".toList ∧ hexField ":00000001FG\n".toList (1 + 2 * 4) 2 = none ∧
    loadLines 0 LoaderState.initial [":0300100057341251\n".toList] = .error (.formatError 0) ∧
    load [":020000020100FB\n".toList] none = .error (.loadRefused (.start 0x1000)) := by decide

theorem witness_ChecksumSumsTheWindows :
    ":00000001FF\n".toList.length / 2 - 1 = [0, 0, 0, 1, 255].length ∧
    (List.range 5).map (fun j => hexField ":00000001FF\n".toList (1 + 2 * j) 2) =
      [some 0, some 0, some 0, some 1, some 255] ∧
    ":00000001FF\n".toList.length = 2 * 0 + 12 ∧ ":00000001FF\r\n".toList.length = 2 * 0 + 13 ∧
    ":00000001FF".toList.length = 2 * 0 + 11 := by decide

/-- An `01` line, an `02` line with and without a payload, lines of type 00, 03 and FF that load and one that does not, and a line
without a type, each with checksum 0. -/
theorem witness_EndAndBaseRecords :
    checksum ":00000001FF\n".toList = some 256 ∧ hexField ":00000001FF\n".toList 7 2 = some 1 ∧
    checksum ":020000020010EC\n".toList = some 256 ∧ hexField ":020000020010EC\n".toList 7 2 = some 2 ∧
    hexField ":020000020010EC\n".toList 9 4 = some 0x10 ∧
    checksum ":00000002FE\n".toList = some 256 ∧ hexField ":00000002FE\n".toList 9 4 = none ∧
    checksum ":0300100056341251\n".toList = some 256 ∧ hexField ":0300100056341251\n".toList 7 2 = some 0 ∧
    checksum ":030010035634124E\n".toList = some 256 ∧ hexField ":030010035634124E\n".toList 7 2 = some 3 ∧
    checksum ":030010FF56341252\n".toList = some 512 ∧ hexField ":030010FF56341252\n".toList 7 2 = some 255 ∧
    (loadData 0 ":030010FF56341252\n".toList LoaderState.initial).toOption = some ⟨[(0x010, 0x123456)], 0, 0⟩ ∧
    checksum ":04001003E9\n".toList = some 256 ∧
    loadData 0 ":04001003E9\n".toList LoaderState.initial = .error (.loadRefused (.line 0)) ∧
    checksum "\n".toList = some 0 ∧ hexField "\n".toList 7 2 = none := by decide

/-- The record of one group, at the last word of memory. -/
theorem witness_DataRecordPlacesItsWords :
    LoaderState.initial.mem.wf = true ∧ hexField ":030FFF0056341253\n".toList 1 2 = some 3 ∧
    hexField ":030FFF0056341253\n".toList 3 4 = some 0xFFF ∧ 9 + 2 * 3 ≤ ":030FFF0056341253\n".toList.length ∧
    hexField ":030FFF0056341253\n".toList 9 2 = some 0x56 ∧ hexField ":030FFF0056341253\n".toList 11 2 = some 0x34 ∧
    hexField ":030FFF0056341253\n".toList 13 2 = some 0x12 ∧ LoaderState.initial.base + 0xFFF + 0 ≤ 4095 := by decide

/-- An unreadable byte count and an unreadable address, a byte count of 4, a line cut short, a first and a second group that is
unreadable, and a second group at 4096. -/
theorem witness_DataRecordFailures :
    hexField ":0G001000".toList 1 2 = none ∧ hexField ":03001G00".toList 3 4 = none ∧
    9 + 2 * 3 ≤ ":03001000G63412".toList.length ∧ groupWord ":03001000G63412".toList 0 = none ∧
    hexField ":03001000G63412".toList 1 2 = some 3 ∧ hexField ":03001000G63412".toList 3 4 = some 0x010 ∧
    9 + 2 * 6 ≤ ":06001000563412020G00".toList.length ∧ groupWord ":06001000563412020G00".toList 1 = none ∧
    hexField ":06001000563412020G00".toList 1 2 = some 6 ∧ hexField ":06001000563412020G00".toList 3 4 = some 0x010 ∧
    (groupWord ":06001000563412020G00".toList 0).isSome = true ∧
    hexField ":0400100001020304E2\n".toList 1 2 = some 4 ∧ hexField ":0400100001020304E2\n".toList 3 4 = some 0x010 ∧
    hexField ":03000000".toList 1 2 = some 3 ∧ ":03000000".toList.length < 9 + 2 * 3 ∧
    hexField ":060FFF00010000020000E9\n".toList 1 2 = some 6 ∧ hexField ":060FFF00010000020000E9\n".toList 3 4 = some 0xFFF ∧
    9 + 2 * 6 ≤ ":060FFF00010000020000E9\n".toList.length ∧
    (∀ i ≤ 1, (groupWord ":060FFF00010000020000E9\n".toList i).isSome = true) ∧
    (∀ i < 1, LoaderState.initial.base + 0xFFF + i ≤ 4095) ∧ 4095 < LoaderState.initial.base + 0xFFF + 1 := by decide

/-- A load with discovered start 0x1000, refused without an override and started at 0xFFF with one. -/
theorem witness_LaunchStartState :
    loadLines 0 LoaderState.initial [":020000020100FB\n".toList] = .ok { mem := [], base := 0x1000, disc := 0x1000 } ∧
    4095 < 0x1000 ∧ (launch Config.default [":020000020100FB\n".toList] (some 0xFFF)).toOption.isSome = true := by decide

/-- One word at the last address, which is the largest address a record of one word may have, and 85 words from 0. -/
theorem witness_LoaderRoundTrip :
    [0x123456#24].length ≤ 85 ∧ 4095 + [0x123456#24].length ≤ 4096 ∧ (List.replicate 85 (0 : Word)).length ≤ 85 ∧
    0 + (List.replicate 85 (0 : Word)).length ≤ 4096 ∧
    load [dataLine 4095 [0x123456]] none = .ok { mem := [(4095, 0x123456)], start := 0 } := by decide

end Sys2Proof.Tests
end

section
/-! SUPPORT. Proofs of the statements of 20_memory.md: the step in memory, the store seen by the next fetch, and the loader's
checksum and data records. -/

namespace Sys2Proof.Machine

/-! ### The program counter and the run state after a step -/

/-- Under `WRAP` a program counter in range names a word (R20). -/
theorem State.pc_le_of_wrap {s : State} (h : s.pcInRange = true) (hw : s.cfg.pcWrap = .wrap) : s.pc.toNat ≤ 4095 := by
  simpa [State.pcInRange, hw] using h

/-- The halt check faults nothing: it goes on RUNNING or halts (R136). -/
theorem haltCheck_ne_faulted (m : Option Mnemonic) (mode : Mode) (cls : Legality) (e : CoreError) :
    haltCheck m mode cls ≠ .faulted e := by
  unfold haltCheck
  split_ifs <;> simp

/-- An instruction leaves PC alone or sets it to a 12-bit target (R190). -/
theorem exec_pc {i : Instr} {s t : State} (h : exec i s = .next t) : t.pc = s.pc ∨ ∃ ea : Addr, t.pc = ea.setWidth 13 := by
  obtain ⟨-, ea, -, rfl⟩ | ⟨-, rfl⟩ := exec_cases h
  · exact (effectOf_pc i ea s).imp_right fun hj => ⟨ea, hj.2⟩
  · exact .inl rfl

/-- An instruction keeps PC in memory when it starts there. -/
theorem exec_pc_le {i : Instr} {s t : State} (h : exec i s = .next t) (hs : s.pc.toNat ≤ 4095) : t.pc.toNat ≤ 4095 := by
  obtain hpc | ⟨ea, hpc⟩ := exec_pc h
  · rwa [hpc]
  · rw [hpc, zext13_toNat]
    exact addr_le ea

/-- Under `WRAP` the advance stays in memory (R133). -/
theorem State.advance_pc_le {s : State} (hw : s.cfg.pcWrap = .wrap) : s.advance.pc.toNat ≤ 4095 := by
  rw [State.advance_pc, hw, nextPc_wrap_toNat]
  omega

/-- Settles O48: PC in range names a word under `WRAP`, so the fetch succeeds; the advance and every jump stay in memory, and
the halt check does not fault. -/
theorem wrapNeverFaults : Obligations.WrapNeverFaults := by
  rintro s ⟨-, hpc, -⟩ hw hrun
  have hle := State.pc_le_of_wrap hpc hw
  obtain ⟨hgt, -⟩ | ⟨-, t, ht, hcases⟩ := step_running_cases hrun
  · omega
  refine ⟨_, ht, ?_⟩
  obtain ⟨i, -, hi⟩ | ⟨cat, op, -, rfl⟩ := hcases
  · obtain ⟨-, -, hrs⟩ := exec_frame hi
    refine ⟨?_, fun e => ?_⟩
    · rw [State.emit_pc]
      exact exec_pc_le hi (State.advance_pc_le hw)
    · rw [State.emit_rs, hrs]
      exact haltCheck_ne_faulted _ _ _ e
  · exact ⟨State.advance_pc_le hw, haltCheck_ne_faulted _ _ _⟩

/-! ### A store seen by the next fetch -/

/-- A step from a PC in memory appends one record, of the word at PC (R132, R138). -/
theorem step_appends_record {s t : State} (hrun : s.rs = .running) (hpc : s.pc.toNat ≤ 4095) (h : step s = .next t) :
    ∃ r : TraceRecord, t.trace = s.trace ++ [r] ∧ r.word = s.mem.read s.pc.toNat := by
  obtain ⟨hgt, -⟩ | ⟨-, t', ht', hcases⟩ := step_running_cases hrun
  · omega
  obtain rfl : _ = t := Host.Outcome.next.inj (ht'.symm.trans h)
  have htrace : t'.trace = s.trace := by
    obtain ⟨i, -, hi⟩ | ⟨cat, op, -, rfl⟩ := hcases
    · exact (exec_frame hi).2.1
    · rfl
  exact ⟨_, by rw [State.emit_trace, htrace], rfl⟩

/-- A step that runs a Legal instruction: the engine goes on RUNNING, and memory and PC are what the instruction's effect makes
of the advanced state (R132 to R136). -/
theorem step_legal {s t : State} {i : Instr} {ea : Addr} (hrun : s.rs = .running) (hpc : s.pc.toNat ≤ 4095)
    (hd : decode s.cfg.opTable (s.mem.read s.pc.toNat) = .instr i)
    (hl : classify (some i.mnemonic) i.form.mode = .legal) (he : s.resolve i.form = some ea) (h : step s = .next t) :
    t.rs = .running ∧ t.mem = (effectOf i ea s.advance).mem ∧ t.pc = (effectOf i ea s.advance).pc := by
  obtain ⟨hgt, -⟩ | ⟨-, t', ht', hcases⟩ := step_running_cases hrun
  · omega
  obtain rfl : _ = t := Host.Outcome.next.inj (ht'.symm.trans h)
  obtain ⟨j, hj, hexec⟩ | ⟨cat, op, hu, -⟩ := hcases
  · obtain rfl : i = j := Decoded.instr.inj (hd.symm.trans hj)
    rw [exec_legal hl (s.advance_resolve _ ▸ he)] at hexec
    cases hexec
    exact ⟨rfl, rfl, rfl⟩
  · exact nomatch hd.symm.trans hu

/-- ST and EM write ACC at `ea` (R151, R152). -/
theorem effectOf_mem_st_em {i : Instr} (h : i.mnemonic ∈ [Mnemonic.st, .em]) (ea : Addr) (s : State) :
    (effectOf i ea s).mem = s.mem.write ea.toNat s.acc := by
  cases i with
  | st | em => rfl
  | _ => simp [Instr.mnemonic] at h

/-- STX and EMX write at `ea` the index register over the low 12 bits of the word there (R154, R155). -/
theorem effectOf_mem_stx_emx {i : Instr} (h : i.mnemonic ∈ [Mnemonic.stx, .emx]) (ea : Addr) (s : State) :
    (effectOf i ea s).mem = s.mem.write ea.toNat (withHigh12 (s.x.get i.form.xsel) (s.mem.read ea.toNat)) := by
  cases i with
  | stx | emx => rfl
  | _ => simp [Instr.mnemonic] at h

/-- A storing instruction in a mode it admits is Legal (R135). -/
theorem classify_storing {m : Mnemonic} {mode : Mode} (h : m ∈ [Mnemonic.st, .em, .stx, .emx])
    (hl : legalFor m mode = true) : classify (some m) mode = .legal :=
  classify_legal_iff.mpr ⟨by rintro rfl; simp at h, by rintro rfl; simp at h, hl⟩

/-- Settles O49: the first step's memory is the instruction's one write, read back at `ea`, which is where the second step
fetches; each step records the word it fetched. -/
theorem storeIsSeenByTheNextFetch : Obligations.StoreIsSeenByTheNextFetch := by
  rintro s t u i ea ⟨hwf, -, -⟩ hrun hpc hd hm hlegal he hst hea htu
  obtain ⟨htrun, hmem, -⟩ := step_legal hrun hpc hd (classify_storing hm hlegal) he hst
  obtain ⟨r₁, htrace₁, hr₁⟩ := step_appends_record hrun hpc hst
  obtain ⟨r₂, htrace₂, hr₂⟩ := step_appends_record htrun (hea ▸ addr_le ea) htu
  refine ⟨fun h => ?_, fun h => ?_, r₁, r₂, by simp [htrace₂, htrace₁], hr₁, hr₂⟩
  · rw [hea, hmem, effectOf_mem_st_em h]
    exact Memory.read_write_same hwf _ _
  · rw [hea, hmem, effectOf_mem_stx_emx h, State.advance_mem, Memory.read_write_same hwf, withHigh12_toNat,
      State.advance_x]

/-! ### The checksum -/

/-- The first `k` windows, read as the first `k` of some bytes, sum to theirs (R55). -/
theorem windowSum_eq_sum_take {L : List Char} {bytes : List Nat}
    (h : ∀ j b : Nat, bytes[j]? = some b → hexField L (1 + 2 * j) 2 = some b) :
    ∀ k ≤ bytes.length, windowSum L k = some (bytes.take k).sum
  | 0, _ => rfl
  | k + 1, hk => by
    have hb : hexField L (1 + 2 * k) 2 = some bytes[k] := h k _ (List.getElem?_eq_getElem hk)
    simp only [windowSum, windowSum_eq_sum_take h k (by omega), hb, List.sum_take_succ bytes k hk]

/-- Settles O52: the sum of the windows by induction on their number, and the count by arithmetic. -/
theorem checksumSumsTheWindows : Obligations.ChecksumSumsTheWindows := by
  refine ⟨fun L bytes hlen h => ?_, fun L n => ?_⟩
  · rw [checksum, windowCount, ← hlen, windowSum_eq_sum_take h _ le_rfl, List.take_length]
  · unfold windowCount
    omega

/-- A line without a checksum ends the load with LoadRefused (R61). -/
theorem loadLines_checksum_unreadable {idx : Nat} {st : LoaderState} {L : List Char} {rest : List (List Char)}
    (h : checksum L = none) : loadLines idx st (L :: rest) = .error (.loadRefused (.line idx)) := by
  simp only [loadLines, h]

/-- A line whose checksum is not 0 modulo 256 ends the load with FormatError (R56). -/
theorem loadLines_checksum_bad {idx sum : Nat} {st : LoaderState} {L : List Char} {rest : List (List Char)}
    (h : checksum L = some sum) (hs : sum % 256 ≠ 0) : loadLines idx st (L :: rest) = .error (.formatError idx) := by
  simp only [loadLines, h, if_pos hs]

/-- Lines that fail give a load that fails with the same error (R63). -/
theorem load_error {lines : List (List Char)} {override : Option Nat} {e : CoreError}
    (h : loadLines 0 LoaderState.initial lines = .error e) : load lines override = .error e := by
  simp only [load, h]

/-- A load that fails launches nothing (R63, R240). -/
theorem launch_error {lines : List (List Char)} {override : Option Nat} {e : CoreError} (cfg : Config)
    (h : load lines override = .error e) : launch cfg lines override = .error e := by
  simp only [launch, h]

/-- Settles O51: the checksum is looked at first in each line, and the load and the launch hand an error on. -/
theorem badChecksumFailsTheLoad : Obligations.BadChecksumFailsTheLoad := by
  refine ⟨fun idx st L rest => ⟨fun sum h hs => loadLines_checksum_bad h hs, fun j hj h => ?_⟩,
    fun lines override e h => ⟨load_error h, fun cfg => launch_error cfg (load_error h)⟩,
    fun lines override e cfg h => launch_error cfg h⟩
  exact loadLines_checksum_unreadable (windowSum_none h hj)

/-! ### Hexadecimal fields -/

theorem hexDigit_lt {c : Char} {d : Nat} (h : hexDigit c = some d) : d < 16 := by
  unfold hexDigit at h
  split_ifs at h <;> cases h <;> omega

/-- `n` digits after the number `acc` stay below the numbers that begin with `acc + 1`. -/
theorem hexDigits_lt : ∀ {n acc v : Nat} {cs : List Char}, hexDigits n acc cs = some v → v < (acc + 1) * 16 ^ n
  | 0, acc, v, cs, h => by cases h; simp
  | n + 1, acc, v, c :: cs, h => by
    simp only [hexDigits] at h
    split at h
    · rename_i d hd
      have := hexDigit_lt hd
      calc v < (16 * acc + d + 1) * 16 ^ n := hexDigits_lt h
        _ ≤ ((acc + 1) * 16) * 16 ^ n := Nat.mul_le_mul_right _ (by omega)
        _ = (acc + 1) * 16 ^ (n + 1) := by ring
    · cases h

/-- A two-digit field is a byte. -/
theorem hexField_two_lt {L : List Char} {i b : Nat} (h : hexField L i 2 = some b) : b < 256 := by
  simpa using hexDigits_lt h

/-- The word of a readable group, as a number (R59). -/
theorem groupWord_some {L : List Char} {i b₀ b₁ b₂ : Nat} (h₀ : hexField L (9 + 6 * i) 2 = some b₀)
    (h₁ : hexField L (11 + 6 * i) 2 = some b₁) (h₂ : hexField L (13 + 6 * i) 2 = some b₂) :
    ∃ w, groupWord L i = some w ∧ w.toNat = b₂ * 65536 + b₁ * 256 + b₀ := by
  refine ⟨BitVec.ofNat 24 (b₂ * 65536 + b₁ * 256 + b₀), by simp only [groupWord, h₀, h₁, h₂], ?_⟩
  have := hexField_two_lt h₀
  have := hexField_two_lt h₁
  have := hexField_two_lt h₂
  rw [BitVec.toNat_ofNat]
  omega

/-! ### Data records -/

/-- A data record whose byte count or address is unreadable is refused (R61). -/
theorem loadData_header_unreadable {idx : Nat} {L : List Char} {st : LoaderState}
    (h : hexField L 1 2 = none ∨ hexField L 3 4 = none) : loadData idx L st = .error (.loadRefused (.line idx)) := by
  unfold loadData
  split
  · rename_i hn ha
    simp [hn, ha] at h
  · rfl

section
variable {idx n addr : Nat} {L : List Char} {st : LoaderState}

/-- A byte count that is not a multiple of 3, or a line too short for it, is refused (R61). -/
theorem loadData_count_bad (hn : hexField L 1 2 = some n) (ha : hexField L 3 4 = some addr)
    (h : n % 3 ≠ 0 ∨ L.length < 9 + 2 * n) : loadData idx L st = .error (.loadRefused (.line idx)) := by
  simp only [loadData, hn, ha, if_pos h]

/-- A data record with a good byte count is its groups written, from base + address on (R59). -/
theorem loadData_eq_map_writeGroups (hn : hexField L 1 2 = some n) (ha : hexField L 3 4 = some addr)
    (h3 : n % 3 = 0) (hlen : 9 + 2 * n ≤ L.length) :
    loadData idx L st =
      (writeGroups idx L (st.base + addr) (n / 3) 0 st.mem).map fun m => { st with mem := m } := by
  have hc : ¬(n % 3 ≠ 0 ∨ L.length < 9 + 2 * n) := by omega
  simp only [loadData, hn, ha, if_neg hc]
  cases writeGroups idx L (st.base + addr) (n / 3) 0 st.mem <;> rfl

end

/-- Groups that are readable and in range are written: the addresses from `target + i` on read their words, every other address
reads as before (R59). -/
theorem writeGroups_ok {idx target : Nat} {L : List Char} : ∀ {n i : Nat} {m : Memory}, m.wf = true →
    (∀ j, i ≤ j → j < i + n → (groupWord L j).isSome = true ∧ target + j ≤ 4095) →
    ∃ m', writeGroups idx L target n i m = .ok m' ∧ m'.wf = true ∧
      (∀ j w, i ≤ j → j < i + n → groupWord L j = some w → m'.read (target + j) = w) ∧
      (∀ a, (∀ j, i ≤ j → j < i + n → a ≠ target + j) → m'.read a = m.read a)
  | 0, i, m, hm, _ => ⟨m, rfl, hm, fun j _ h1 h2 => by omega, fun _ _ => rfl⟩
  | n + 1, i, m, hm, h => by
    obtain ⟨hs, ha⟩ := h i le_rfl (by omega)
    obtain ⟨w, hw⟩ := Option.isSome_iff_exists.mp hs
    obtain ⟨m', hok, hwf, hread, hother⟩ := writeGroups_ok (idx := idx) (n := n) (i := i + 1) (Memory.write_wf hm ha w)
      fun j h1 h2 => h j (by omega) (by omega)
    refine ⟨m', (writeGroups_succ hw ha).trans hok, hwf, fun j v h1 h2 hv => ?_, fun a hne => ?_⟩
    · obtain rfl | hlt := Nat.eq_or_lt_of_le h1
      · rw [hother _ fun j _ _ => by omega, Memory.read_write_same hm]
        exact Option.some.inj (hw.symm.trans hv)
      · exact hread j v hlt (by omega) hv
    · rw [hother a fun j h1 h2 => hne j (by omega) (by omega), Memory.read_write_ne hm (hne i le_rfl (by omega))]

/-- Settles O54: each group is read as its word, and the groups are written one by one. -/
theorem dataRecordPlacesItsWords : Obligations.DataRecordPlacesItsWords := by
  intro idx L st n addr b₀ b₁ b₂ hm hn ha h3 hlen hgroups
  have hword : ∀ i < n / 3, ∃ w, groupWord L i = some w ∧ w.toNat = b₂ i * 65536 + b₁ i * 256 + b₀ i := fun i hi => by
    obtain ⟨h₀, h₁, h₂, -⟩ := hgroups i hi
    exact groupWord_some h₀ h₁ h₂
  obtain ⟨m, hok, hwf, hread, hother⟩ := writeGroups_ok (idx := idx) (target := st.base + addr) (n := n / 3) (i := 0) hm
    fun j _ hj => by
      obtain ⟨w, hw, -⟩ := hword j (by omega)
      exact ⟨Option.isSome_of_eq_some hw, (hgroups j (by omega)).2.2.2⟩
  refine ⟨m, ?_, hwf, fun i hi => ?_, fun a hne => hother a fun j _ hj => hne j (by omega)⟩
  · rw [loadData_eq_map_writeGroups hn ha h3 hlen, hok]
    rfl
  · obtain ⟨w, hw, hval⟩ := hword i hi
    rw [hread i w (Nat.zero_le i) (by omega) hw, hval]

/-- An unreadable group is refused (R61). -/
theorem writeGroups_unreadable {idx target i : Nat} {L : List Char} (h : groupWord L i = none) (n : Nat) (m : Memory) :
    writeGroups idx L target (n + 1) i m = .error (.loadRefused (.line idx)) := by
  simp only [writeGroups, h]

/-- A readable group beyond memory is out of range (R60). -/
theorem writeGroups_out_of_range {idx target i : Nat} {L : List Char} (h : (groupWord L i).isSome = true)
    (ha : 4095 < target + i) (n : Nat) (m : Memory) :
    writeGroups idx L target (n + 1) i m = .error (.addressOutOfRange (target + i)) := by
  obtain ⟨w, hw⟩ := Option.isSome_iff_exists.mp h
  simp only [writeGroups, hw, Memory.writeChecked, if_neg (Nat.not_le.mpr ha)]

/-- Settles O55: the header's checks come first; then the groups are written as far as the first that fails. -/
theorem dataRecordFailures : Obligations.DataRecordFailures := by
  refine fun idx L st => ⟨loadData_header_unreadable, fun n addr hn ha =>
    ⟨loadData_count_bad hn ha, fun k h3 hlen hk hbefore => ?_⟩⟩
  have fails_at : ∀ e, (∀ n m, writeGroups idx L (st.base + addr) (n + 1) k m = .error e) →
      loadData idx L st = .error e := fun e he => by
    rw [loadData_eq_map_writeGroups hn ha h3 hlen,
      writeGroups_error he (Nat.zero_le k) (by omega) fun j _ hj => hbefore j hj]
    rfl
  exact ⟨fun h => fails_at _ (writeGroups_unreadable h), fun h hgt => fails_at _ (writeGroups_out_of_range h hgt)⟩

end Sys2Proof.Machine
end

section
/-! SUPPORT. Proofs of the statements of 30_encoding.md: the two round trips, the fields of a decoded word, the written-out words
and the halt at an undefined opcode. -/

namespace Sys2Proof

/-! ### The opcode table as a map -/

/-- A table is a map when its first cell is not filled again and the rest is a map (R7). -/
theorem OpTable.wf_cons {r : OpRow} {t : OpTable} :
    OpTable.wf (r :: t) = true ↔ (∀ q ∈ t, ¬(q.cat = r.cat ∧ q.op = r.op)) ∧ OpTable.wf t = true := by
  simp [OpTable.wf, imp_iff_not_or]

/-- In a table that is a map every row is found at its cell (R83). -/
theorem OpTable.lookup_of_mem {r : OpRow} : ∀ {t : OpTable}, OpTable.wf t = true → r ∈ t →
    t.lookup r.cat r.op = some r.mnemonic
  | q :: t, hwf, hr => by
    obtain ⟨hfirst, hrest⟩ := OpTable.wf_cons.mp hwf
    obtain rfl | hr := List.mem_cons.mp hr
    · exact if_pos ⟨rfl, rfl⟩
    · have hne : ¬(q.cat = r.cat ∧ q.op = r.op) := fun h => hfirst r hr ⟨h.1.symm, h.2.symm⟩
      rw [OpTable.lookup, if_neg hne, lookup_of_mem hrest hr]

/-- The mnemonic found at a cell is one of the table's rows. -/
theorem OpTable.mem_of_lookup {cat : BitVec 2} {op : BitVec 4} {m : Mnemonic} : ∀ {t : OpTable},
    t.lookup cat op = some m → ⟨cat, op, m⟩ ∈ t
  | r :: t, h => by
    rw [OpTable.lookup] at h
    split_ifs at h with hc
    · obtain ⟨rfl, rfl⟩ := hc
      cases h
      exact List.mem_cons_self
    · exact List.mem_cons_of_mem r (mem_of_lookup h)

/-- The cell the encoder picks for a mnemonic is one of the table's rows. -/
theorem OpTable.mem_of_cellOf {m : Mnemonic} {c : BitVec 2 × BitVec 4} : ∀ {t : OpTable},
    t.cellOf m = some c → ⟨c.1, c.2, m⟩ ∈ t
  | r :: t, h => by
    rw [OpTable.cellOf] at h
    split_ifs at h with hm
    · subst hm
      cases h
      exact List.mem_cons_self
    · exact List.mem_cons_of_mem r (mem_of_cellOf h)

/-- Each row of the default table stands at its mnemonic's opcode (R86, R87). -/
theorem OpTable.opcode_fields_of_mem_standard : ∀ r ∈ OpTable.standard,
    r.mnemonic.opcode.extractLsb' 4 2 = r.cat ∧ r.mnemonic.opcode.extractLsb' 0 4 = r.op := by decide

/-! ### The round trips -/

/-- An assembled word decodes to the mnemonic of its cell with its form. -/
theorem decode_assemble {t : OpTable} {cat : BitVec 2} {op : BitVec 4} {m : Mnemonic} {f : Form}
    (h : t.lookup cat op = some m) (hf : f.wf = true) : decode t (assemble cat op f) = .instr (Instr.make m f) := by
  simp only [decode_eq, catOf_assemble, opOf_assemble, h, formOf_assemble cat op hf]

/-- An encoded word is assembled at a cell the table gives the mnemonic. -/
theorem encodeIn_some {t : OpTable} {i : Instr} {w : Word} (h : encodeIn t i = some w) :
    ∃ c, t.cellOf i.mnemonic = some c ∧ w = assemble c.1 c.2 i.form := by
  unfold encodeIn at h
  split at h
  · rename_i c hc
    exact ⟨c, hc, (Option.some.inj h).symm⟩
  · cases h

/-- The default encoder is the encoder under the default table (R87, R97). -/
theorem encodeIn_standard (i : Instr) : encodeIn OpTable.standard i = some (encode i) := by
  simp only [encodeIn, cellOf_standard, encode]

/-- Settles O1: the encoder's cell is a row of the table, a map finds each row at its cell, and the form is read back from the
assembled word. -/
theorem decodeOfEncodeIsTheInstruction : Obligations.DecodeOfEncodeIsTheInstruction := by
  refine ⟨fun t i w ht hi hw => ?_, by decide, encodeIn_standard⟩
  obtain ⟨c, hc, rfl⟩ := encodeIn_some hw
  have hlookup : t.lookup c.1 c.2 = some i.mnemonic := OpTable.lookup_of_mem ht (OpTable.mem_of_cellOf hc)
  rw [decode_assemble hlookup hi, Instr.make_eta]

/-! ### The fields of a word as numbers -/

theorem catOf_toNat (w : Word) : (catOf w).toNat = w.toNat / 1024 % 4 := by
  simp [catOf, Nat.shiftRight_eq_div_pow]

theorem opOf_toNat (w : Word) : (opOf w).toNat = w.toNat / 64 % 16 := by
  simp [opOf, Nat.shiftRight_eq_div_pow]

theorem selOf_toNat (w : Word) : (selOf w).toNat = w.toNat / 4 % 16 := by
  simp [selOf, Nat.shiftRight_eq_div_pow]

theorem xselOf_toNat (w : Word) : (xselOf w).toNat = w.toNat % 4 := by
  simp [xselOf]

/-- A word is assembled from its own fields: the five fields leave out no bit (R81, R97). -/
theorem assemble_fields (w : Word) : assemble (catOf w) (opOf w) (formOf w) = w := by
  apply BitVec.eq_of_toNat_eq
  simp only [assemble_toNat, formOf, sel_modeOfSel, sel_xregOfSel, opndOf_toNat, catOf_toNat, opOf_toNat, selOf_toNat,
    xselOf_toNat]
  omega

/-- The form of a word is well-formed: its mode comes from the selector table. -/
theorem formOf_wf (w : Word) : (formOf w).wf = true := modeOfSel_wf (selOf w)

/-- Settles O2: the decoded mnemonic's row stands at the mnemonic's opcode, so the encoder assembles the word's own fields. -/
theorem encodeOfDecodeIsTheWord : Obligations.EncodeOfDecodeIsTheWord := by
  intro w i h
  obtain ⟨hlookup, hform⟩ := decode_instr h
  obtain ⟨hcat, hop⟩ := OpTable.opcode_fields_of_mem_standard _ (OpTable.mem_of_lookup hlookup)
  exact ⟨by rw [Instr.wf, hform, formOf_wf], by rw [encode, hcat, hop, hform, assemble_fields]⟩

/-! ### What the decoder reads -/

/-- A selector outside the five mapped ones gives ILLEGAL (R84). -/
theorem modeOfSel_unmapped {sel : BitVec 4} (h : sel.toNat ∉ [0, 1, 2, 4, 6]) : modeOfSel sel = .illegal sel := by
  unfold modeOfSel
  split <;> simp_all

/-- Settles O3: the mode of a decoded instruction is the selector's, whose number is that of bits 5..2. -/
theorem selectorGivesTheMode : Obligations.SelectorGivesTheMode := by
  intro t w i h
  obtain ⟨-, hform⟩ := decode_instr h
  have hmode : i.form.mode = modeOfSel (selOf w) := by rw [hform, formOf]
  rw [hmode, ← selOf_toNat]
  refine ⟨fun hs => ?_, fun hs => ?_, fun hs => ?_, fun hs => ?_, fun hs => ?_, fun hs => ⟨_, modeOfSel_unmapped hs⟩⟩ <;>
    simp only [modeOfSel, hs]

/-- Settles O4: each field of the form is the field of the word, by number, and so is each half of the cell. -/
theorem decodeReadsTheFields : Obligations.DecodeReadsTheFields := by
  intro t w i h
  obtain ⟨hlookup, hform⟩ := decode_instr h
  have hcat : BitVec.ofNat 2 (w.toNat / 1024) = catOf w := BitVec.eq_of_toNat_eq (by simp [catOf_toNat])
  have hop : BitVec.ofNat 4 (w.toNat / 64) = opOf w := BitVec.eq_of_toNat_eq (by simp [opOf_toNat])
  have hxsel : i.form.xsel = xregOfSel (xselOf w) := by rw [hform, formOf]
  rw [hcat, hop, hxsel, ← xselOf_toNat]
  refine ⟨by rw [hform, formOf, opndOf_toNat], fun hx => ?_, fun hx => ?_, fun hx => ?_, fun hx => ?_, hlookup⟩ <;>
    simp only [xregOfSel, hx]

/-- Settles O5: the decoder computes on eight fixed words. -/
theorem writtenOutWordsDecode : Obligations.WrittenOutWordsDecode := by
  unfold Obligations.WrittenOutWordsDecode
  decide

end Sys2Proof

namespace Sys2Proof.Machine

/-! ### Undefined opcodes -/

/-- A word whose cell is empty is rejected by its opcode (R91). -/
theorem decode_undefined {t : OpTable} {w : Word} (h : t.lookup (catOf w) (opOf w) = none) :
    decode t w = .undefinedOpcode (catOf w) (opOf w) := by
  simp only [decode_eq, h]

/-- An undefined opcode in a mapped mode halts with "undefined opcode" (R136). -/
theorem haltCheck_undefined {mode : Mode} (h : ∀ p, mode ≠ .illegal p) (cls : Legality) :
    haltCheck none mode cls = .halted .undefinedOpcode := by
  simp [haltCheck, isIllegalMode_eq_false h]

/-- Settles O6: the step of an undefined opcode is the advance, the halt check and the record; the empty cells are counted. -/
theorem undefinedOpcodeHalts : Obligations.UndefinedOpcodeHalts := by
  refine ⟨fun t w => decode_undefined, fun s hrun hpc hcell hmode => ?_, by decide⟩
  obtain ⟨hgt, -⟩ | ⟨-, t, ht, hcases⟩ := step_running_cases hrun
  · omega
  obtain ⟨i, hi, -⟩ | ⟨cat, op, -, hconclude⟩ := hcases
  · exact nomatch (decode_undefined hcell).symm.trans hi
  · refine ⟨t.record s.pc (s.control (s.mem.read s.pc.toNat)), hcell, rfl, ?_⟩
    rw [ht, hconclude, State.conclude, haltCheck_undefined hmode]
    rfl

end Sys2Proof.Machine
end

section
/-! SUPPORT. Proofs of the statements of 40_addressing.md: what the resolver gives in each mode, and the index register in the
INDEXED address. -/

namespace Sys2Proof.Machine

/-! ### The resolver by mode -/

theorem State.resolve_direct (s : State) {f : Form} (h : f.mode = .direct) : s.resolve f = some f.opnd := by
  simp only [State.resolve, h]

theorem State.resolve_immediate (s : State) {f : Form} (h : f.mode = .immediate) : s.resolve f = some f.opnd := by
  simp only [State.resolve, h]

theorem State.resolve_indexed (s : State) {f : Form} (h : f.mode = .indexed) :
    s.resolve f = some (indexedSum s.cfg.eaMod f.opnd (s.x.get f.xsel)) := by
  simp only [State.resolve, h]

theorem State.resolve_indirect (s : State) {f : Form} (h : f.mode = .indirect) :
    s.resolve f = some (high12 (s.memRead f.opnd)) := by
  simp only [State.resolve, h]

theorem State.resolve_illegal (s : State) {f : Form} {p : BitVec 4} (h : f.mode = .illegal p) : s.resolve f = none := by
  simp only [State.resolve, h]

/-! ### The INDEXED address -/

/-- Under `EA_MOD = 4096` the address sum is the addition of 12-bit words (R112). -/
theorem indexedSum_mod4096 (a b : Addr) : indexedSum .mod4096 a b = a + b :=
  BitVec.eq_of_toNat_eq (by rw [indexedSum_toNat, BitVec.toNat_add, eaModulus])

/-- Settles O9: both addresses are the same operand plus the selected index register, and 12-bit addition cancels. -/
theorem indexChangesTheAddress : Obligations.IndexChangesTheAddress := by
  intro f s t hf hs ht
  rw [s.resolve_indexed hf, t.resolve_indexed hf, hs, ht, indexedSum_mod4096, indexedSum_mod4096, Option.some_inj,
    BitVec.add_right_inj]

/-! ### The modes that read no index register -/

/-- The instructions that would write or jump to their operand, and no others, reject IMMEDIATE (R115, R141). -/
theorem legalFor_immediate_eq_false_iff {m : Mnemonic} :
    legalFor m .immediate = false ↔ m ∈ [Mnemonic.st, .em, .stx, .emx, .j, .jz, .jn, .jp] := by
  cases m <;> decide

/-- Settles O7: the resolver mode by mode, and the rejection of an IMMEDIATE operand that would be written or jumped to. -/
theorem plainModesResolve : Obligations.PlainModesResolve := by
  refine fun f s => ⟨s.resolve_direct, s.resolve_immediate, fun p => s.resolve_illegal, fun hf => ?_, fun hf i hi hm => ?_⟩
  · exact ⟨_, s.resolve_indirect hf, high12_toNat _⟩
  · subst hi
    have hrejected : legalFor i.mnemonic i.form.mode = false := by rw [hf, legalFor_immediate_eq_false_iff]; exact hm
    exact exec_rejected s (by rintro h; simp [h] at hm) (by rintro h; simp [h] at hm) hrejected

end Sys2Proof.Machine
end

section
/-! SUPPORT. Proofs of the statements of 41_sequencer.md: the step of a running engine, state for state. -/

namespace Sys2Proof.Machine

/-! ### The record of a step -/

/-- The mnemonic of the Control record of a decoded word is the instruction's (R94, R138). -/
theorem State.control_mnemonic_of_instr {s : State} {w : Word} {i : Instr} (h : decode s.cfg.opTable w = .instr i) :
    (s.control w).mnemonic = some i.mnemonic :=
  (decode_instr h).1

/-- A word with an undefined opcode has no mnemonic in its Control record (R91, R94). -/
theorem State.control_mnemonic_of_undefined {s : State} {w : Word} {cat : BitVec 2} {op : BitVec 4}
    (h : decode s.cfg.opTable w = .undefinedOpcode cat op) : (s.control w).mnemonic = none := by
  cases hlookup : s.cfg.opTable.lookup (catOf w) (opOf w) with
  | none => exact hlookup
  | some m => simp [decode_eq, hlookup] at h

/-- The record of a step, field by field, with the address as a number (R138, R139). -/
theorem State.record_control {s t : State} {w : Word} {m : Option Mnemonic} (h : (s.control w).mnemonic = m) :
    t.record s.pc (s.control w) =
      { addr := BitVec.ofNat 12 s.pc.toNat, word := w, mnemonic := m, display := (s.control w).display,
        regs := t.snapshot } := by
  rw [State.record, h, BitVec.ofNat_toNat, State.control]

/-- Settles O38: PC tells whether the fetch faults; otherwise the decoded word tells which case of the step applies, and the record
it appends has the decoded word's mnemonic. -/
theorem stepRunsTheDecodedInstruction : Obligations.StepRunsTheDecodedInstruction := by
  intro s hrun
  obtain ⟨hgt, hfault⟩ | ⟨hle, t, ht, hcases⟩ := step_running_cases hrun
  · exact ⟨fun _ => hfault, fun hle => absurd hgt (by omega)⟩
  refine ⟨fun hgt => absurd hgt (by omega), fun _ => ⟨fun i hi => ?_, fun cat op hu => ?_⟩⟩
  · rw [State.record_control (State.control_mnemonic_of_instr hi)] at ht
    obtain ⟨j, hj, hexec⟩ | ⟨cat, op, hu, -⟩ := hcases
    · obtain rfl : i = j := Decoded.instr.inj (hi.symm.trans hj)
      exact ⟨t, hexec, ht⟩
    · exact nomatch hi.symm.trans hu
  · rw [State.record_control (State.control_mnemonic_of_undefined hu)] at ht
    obtain ⟨i, hi, -⟩ | ⟨_, _, -, rfl⟩ := hcases
    · exact nomatch hu.symm.trans hi
    · exact ht

end Sys2Proof.Machine
end

section
/-! SUPPORT. Proofs of the statements of 42_load_store.md: load, store and exchange, in the modes each instruction admits and in
those it rejects. -/

namespace Sys2Proof.Machine

/-! ### The modes each group of instructions admits -/

/-- LD and the arithmetic and logic instructions admit every mapped mode (R141, D14). -/
theorem legalFor_every_mapped {m : Mnemonic} {mode : Mode}
    (h : m ∈ [Mnemonic.ld, .add, .sub, .clr, .com, .and, .or, .xor, .addx, .subx, .clrx]) :
    legalFor m mode = true ↔ ∀ p, mode ≠ .illegal p := by
  refine ⟨legalFor_mapped, fun hmode => ?_⟩
  cases mode with
  | illegal p => exact absurd rfl (hmode p)
  | _ => revert h; cases m <;> decide

/-- ST, EM and the jumps admit every mapped mode but IMMEDIATE (R115, R141, D12). -/
theorem legalFor_but_immediate {m : Mnemonic} {mode : Mode} (h : m ∈ [Mnemonic.st, .em, .j, .jz, .jn, .jp]) :
    legalFor m mode = true ↔ (∀ p, mode ≠ .illegal p) ∧ mode ≠ .immediate := by
  refine ⟨fun hl => ⟨legalFor_mapped hl, ?_⟩, fun ⟨hmode, himm⟩ => ?_⟩
  · rintro rfl
    revert h hl
    cases m <;> decide
  · cases mode with
    | illegal p => exact absurd rfl (hmode p)
    | immediate => exact absurd rfl himm
    | _ => revert h; cases m <;> decide

/-- LDX admits IMMEDIATE and DIRECT (R141, R153). -/
theorem legalFor_ldx {mode : Mode} : legalFor .ldx mode = true ↔ mode = .immediate ∨ mode = .direct := by
  cases mode <;> simp [legalFor]

/-- STX and EMX admit DIRECT only (R141, D13). -/
theorem legalFor_stx_emx {m : Mnemonic} {mode : Mode} (h : m ∈ [Mnemonic.stx, .emx]) :
    legalFor m mode = true ↔ mode = .direct := by
  obtain rfl | rfl : m = .stx ∨ m = .emx := by simpa using h
  all_goals cases mode <;> simp [legalFor]

/-! ### Executing in the modes admitted and in those rejected -/

/-- In a mode its mnemonic admits, an instruction other than HALT and NOP does its effect at the resolved `ea` and goes on
RUNNING (R135, R136). -/
theorem exec_admitted {i : Instr} (s : State) (h1 : i.mnemonic ≠ .halt) (h2 : i.mnemonic ≠ .nop)
    (h : legalFor i.mnemonic i.form.mode = true) :
    ∃ ea, s.resolve i.form = some ea ∧ exec i s = .next { effectOf i ea s with rs := .running } := by
  obtain ⟨ea, hea⟩ := s.resolve_some (legalFor_mapped h)
  exact ⟨ea, hea, exec_legal (classify_legal_iff.mpr ⟨h1, h2, h⟩) hea⟩

/-- Every instruction but HALT and NOP admits DIRECT and does its effect at the operand (R111, R141). -/
theorem exec_direct {i : Instr} (s : State) (h1 : i.mnemonic ≠ .halt) (h2 : i.mnemonic ≠ .nop)
    (h : i.form.mode = .direct) : exec i s = .next { effectOf i i.form.opnd s with rs := .running } := by
  have hl : legalFor i.mnemonic i.form.mode = true := by rw [h]; cases i.mnemonic <;> rfl
  exact exec_legal (classify_legal_iff.mpr ⟨h1, h2, hl⟩) (s.resolve_direct h)

/-- LD and the arithmetic and logic instructions do their effect in every mapped mode and halt in ILLEGAL. -/
theorem exec_every_mapped {i : Instr} (s : State)
    (hm : i.mnemonic ∈ [Mnemonic.ld, .add, .sub, .clr, .com, .and, .or, .xor, .addx, .subx, .clrx]) :
    ((∀ p, i.form.mode ≠ .illegal p) →
      ∃ ea, s.resolve i.form = some ea ∧ exec i s = .next { effectOf i ea s with rs := .running }) ∧
    (∀ p, i.form.mode = .illegal p → exec i s = .next { s with rs := .halted .illegalAddressingMode }) := by
  have h1 : i.mnemonic ≠ .halt := by rintro h; simp [h] at hm
  have h2 : i.mnemonic ≠ .nop := by rintro h; simp [h] at hm
  exact ⟨fun hmode => exec_admitted s h1 h2 ((legalFor_every_mapped hm).mpr hmode),
    fun p hp => exec_rejected s h1 h2 (Bool.eq_false_iff.mpr fun hl => legalFor_mapped hl p hp)⟩

/-- ST, EM and the jumps do their effect in every mapped mode but IMMEDIATE and halt in IMMEDIATE and ILLEGAL. -/
theorem exec_but_immediate {i : Instr} (s : State) (hm : i.mnemonic ∈ [Mnemonic.st, .em, .j, .jz, .jn, .jp]) :
    ((∀ p, i.form.mode ≠ .illegal p) → i.form.mode ≠ .immediate →
      ∃ ea, s.resolve i.form = some ea ∧ exec i s = .next { effectOf i ea s with rs := .running }) ∧
    (i.form.mode = .immediate ∨ (∃ p, i.form.mode = .illegal p) →
      exec i s = .next { s with rs := .halted .illegalAddressingMode }) := by
  have h1 : i.mnemonic ≠ .halt := by rintro h; simp [h] at hm
  have h2 : i.mnemonic ≠ .nop := by rintro h; simp [h] at hm
  have hlegal := legalFor_but_immediate (mode := i.form.mode) hm
  refine ⟨fun hmode himm => exec_admitted s h1 h2 (hlegal.mpr ⟨hmode, himm⟩),
    fun hrej => exec_rejected s h1 h2 (Bool.eq_false_iff.mpr fun hl => ?_)⟩
  obtain ⟨hmode, himm⟩ := hlegal.mp hl
  exact hrej.elim himm fun ⟨p, hp⟩ => hmode p hp

/-- STX and EMX halt in every mode but DIRECT. -/
theorem exec_stx_emx_rejected {i : Instr} (s : State) (hm : i.mnemonic ∈ [Mnemonic.stx, .emx])
    (h : i.form.mode ≠ .direct) : exec i s = .next { s with rs := .halted .illegalAddressingMode } :=
  exec_rejected s (by rintro h; simp [h] at hm) (by rintro h; simp [h] at hm)
    (Bool.eq_false_iff.mpr (h ∘ (legalFor_stx_emx hm).mp))

/-! ### The values loaded and read back -/

/-- A word is not negative exactly below 2^23 (R9). -/
theorem signed24_nonneg_iff (w : Word) : 0 ≤ signed24 w ↔ w.toNat < 2 ^ 23 := by
  have := w.isLt
  rw [signed24_eq]
  split <;> omega

/-- `HighVal` of an IMMEDIATE operand (R119). -/
theorem State.highVal_immediate {f : Form} (h : f.mode = .immediate) (s : State) (ea : Addr) : s.highVal f ea = f.opnd := by
  simp only [State.highVal, h]

/-- `HighVal` of a memory operand (R119). -/
theorem State.highVal_memory {f : Form} (h : f.mode ≠ .immediate) (s : State) (ea : Addr) :
    s.highVal f ea = high12 (s.memRead ea) := by
  unfold State.highVal
  split
  · contradiction
  · rfl

/-- The low 12 bits give the whole word back exactly when it is at most 0xFFF (C3). -/
theorem zext24_low12_eq_iff (w : Word) : (low12 w).setWidth 24 = w ↔ w.toNat ≤ 0xFFF := by
  rw [← BitVec.toNat_inj, zext24_toNat, low12_toNat]
  omega

/-! ### The statements -/

/-- Settles O12: the effect at the resolved address, and the low 12 bits of the word read back by LD. -/
theorem stStoresTheAccumulator : Obligations.StStoresTheAccumulator := by
  refine ⟨fun _ => decode_standard_of_opcode .st, fun f s => ?_⟩
  obtain ⟨hadmitted, hrejected⟩ := exec_but_immediate (i := .st f) s (by simp [Instr.mnemonic])
  refine ⟨fun hmode himm => ?_, hrejected, fun hdir hwf hval => ?_⟩
  · obtain ⟨ea, hea, hexec⟩ := hadmitted hmode himm
    exact ⟨ea, hea, hexec, fun hwf => Memory.read_write_same hwf _ _⟩
  · have hst := exec_direct (i := .st f) s nofun nofun hdir
    have hld := exec_direct (i := .ld f) { effectOf (.st f) f.opnd s with rs := .running } nofun nofun hdir
    refine ⟨_, _, hst, hld, ?_⟩
    have hacc : State.val { effectOf (.st f) f.opnd s with rs := .running } f f.opnd = (low12 s.acc).setWidth 24 := by
      rw [State.val_memory (by simp [hdir])]
      simp [effectOf, State.memRead, Memory.read_write_same hwf, reduceWord, hval]
    exact (Eq.congr_left hacc).trans (zext24_low12_eq_iff s.acc)

/-- Settles O13: the second exchange reads back the ACC written by the first, and writes back the word it took. -/
theorem emExchangesTheAccumulator : Obligations.EmExchangesTheAccumulator := by
  refine ⟨fun _ => decode_standard_of_opcode .em, fun f s => ?_⟩
  obtain ⟨hadmitted, hrejected⟩ := exec_but_immediate (i := .em f) s (by simp [Instr.mnemonic])
  refine ⟨hadmitted, hrejected, fun hdir hwf => ?_⟩
  refine ⟨_, exec_direct (i := .em f) s nofun nofun hdir, (exec_direct (i := .em f) _ nofun nofun hdir).trans ?_⟩
  simp [effectOf, State.memWrite, State.setAcc, State.memRead, Instr.form, Memory.read_write_same hwf,
    Memory.write_write_back hwf (addr_le f.opnd)]

/-- Settles O15: the word written has the register above the old low 12 bits, so as a pointer it gives the register. -/
theorem stxStoresTheIndexRegister : Obligations.StxStoresTheIndexRegister := by
  refine ⟨fun _ => decode_standard_of_opcode .stx, fun f s => ⟨fun hdir => ?_, fun hdir => ?_⟩⟩
  · refine ⟨_, _, withHigh12_toNat _ _, rfl, exec_direct (i := .stx f) s nofun nofun hdir, fun hwf => ?_⟩
    rw [State.resolve_indirect _ rfl, State.memRead, Memory.read_write_same hwf, high12_withHigh12]
  · exact exec_stx_emx_rejected (i := .stx f) s (by simp [Instr.mnemonic]) hdir

/-- Settles O16: the second exchange puts the old high part back over the word's kept low part, and the register back from the
word the first one wrote. -/
theorem emxExchangesTheIndexRegister : Obligations.EmxExchangesTheIndexRegister := by
  refine ⟨fun _ => decode_standard_of_opcode .emx, fun f s => ⟨fun hdir => ?_, fun hdir hwf => ?_, fun hdir => ?_⟩⟩
  · exact ⟨_, _, withHigh12_toNat _ _, high12_toNat _, exec_direct (i := .emx f) s nofun nofun hdir⟩
  · refine ⟨_, exec_direct (i := .emx f) s nofun nofun hdir, (exec_direct (i := .emx f) _ nofun nofun hdir).trans ?_⟩
    simp [effectOf, State.memWrite, State.setX, State.memRead, Instr.form, Memory.read_write_same hwf,
      Memory.write_write_back hwf (addr_le f.opnd)]
  · exact exec_stx_emx_rejected (i := .emx f) s (by simp [Instr.mnemonic]) hdir

/-- Settles O11: the effect at the resolved address, and the bound on `Val`. -/
theorem ldLoadsTheAccumulator : Obligations.LdLoadsTheAccumulator := by
  refine ⟨fun _ => decode_standard_of_opcode .ld, fun f s => ?_⟩
  obtain ⟨hadmitted, hrejected⟩ := exec_every_mapped (i := .ld f) s (by simp [Instr.mnemonic])
  refine ⟨fun hmode => ?_, hrejected⟩
  obtain ⟨ea, hea, hexec⟩ := hadmitted hmode
  refine ⟨ea, hea, hexec, fun hsmall => ?_⟩
  have hle := State.val_le hsmall ea
  exact ⟨hle, (signed24_nonneg_iff _).mpr (by omega)⟩

/-- Settles O14: LDX in each of its two modes, and its halt in the others. -/
theorem ldxLoadsTheIndexRegister : Obligations.LdxLoadsTheIndexRegister := by
  refine ⟨fun _ => decode_standard_of_opcode .ldx, fun f s => ⟨fun himm => ?_, fun hdir => ?_, fun himm hdir => ?_⟩⟩
  · have hlegal : classify (some .ldx) f.mode = .legal :=
      classify_legal_iff.mpr ⟨nofun, nofun, legalFor_ldx.mpr (.inl himm)⟩
    refine (exec_legal (i := .ldx f) hlegal (s.resolve_immediate himm)).trans ?_
    simp only [effectOf, State.highVal_immediate himm, State.setX]
  · refine ⟨high12 (s.memRead f.opnd), high12_toNat _, (exec_direct (i := .ldx f) s nofun nofun hdir).trans ?_⟩
    simp only [effectOf, Instr.form, State.highVal_memory (show f.mode ≠ .immediate by simp [hdir]), State.setX]
  · exact exec_rejected (i := .ldx f) s nofun nofun (Bool.eq_false_iff.mpr fun hl => (legalFor_ldx.mp hl).elim himm hdir)

end Sys2Proof.Machine
end

section
/-! SUPPORT. Proofs of the statements of 43_alu.md: accumulator and index arithmetic and logic, in every mapped mode and in
ILLEGAL. -/

namespace Sys2Proof.Machine

/-! ### Executing in every mapped mode -/

/-- To show `P` of LD or an arithmetic or logic instruction in every mapped mode, take the resolved `ea` and the effect there; in
ILLEGAL the instruction halts with no write. The effect is given from every state that resolves to the same `ea`, for `P` that
executes the instruction twice. -/
theorem exec_every_mapped_of {i : Instr} {s : State} {P : Prop}
    (hm : i.mnemonic ∈ [Mnemonic.ld, .add, .sub, .clr, .com, .and, .or, .xor, .addx, .subx, .clrx])
    (h : ∀ ea, s.resolve i.form = some ea →
      (∀ t : State, t.resolve i.form = some ea → exec i t = .next { effectOf i ea t with rs := .running }) → P) :
    ((∀ p, i.form.mode ≠ .illegal p) → P) ∧
    (∀ p, i.form.mode = .illegal p → exec i s = .next { s with rs := .halted .illegalAddressingMode }) := by
  refine ⟨fun hmode => ?_, (exec_every_mapped s hm).2⟩
  obtain ⟨ea, hea⟩ := s.resolve_some hmode
  refine h ea hea fun t ht => ?_
  obtain ⟨ea', hea', hexec⟩ := (exec_every_mapped t hm).1 hmode
  obtain rfl : ea = ea' := Option.some.inj (ht.symm.trans hea')
  exact hexec

/-- The accumulator and the run state are no part of an address (R110). -/
theorem State.resolve_with_acc (s : State) (v : Word) (r : RunState) (f : Form) :
    State.resolve { s with acc := v, rs := r } f = s.resolve f :=
  State.resolve_congr rfl rfl rfl f

/-! ### Bitwise results -/

/-- An operand that meets the accumulator by exclusive or twice leaves it as it was (R174, R177). -/
theorem xor_xor_self (a v : Word) : a ^^^ v ^^^ v = a := by
  rw [BitVec.xor_assoc, BitVec.xor_self, BitVec.xor_zero]

/-- COM's exclusive or with all ones is the complement (R174). -/
theorem xor_all_ones (a : Word) : a ^^^ 0xFFFFFF = ~~~a := BitVec.xor_allOnes

/-- The complement of a word, read as a signed number (R174). -/
theorem signed24_not (a : Word) : signed24 (~~~a) = -signed24 a - 1 := by
  have := a.isLt
  rw [signed24_eq, signed24_eq, BitVec.toNat_not]
  split <;> split <;> omega

/-- With an IMMEDIATE operand and unless `MEMVAL` is FULL24, `Val` has bits 23:12 zero (R118). -/
theorem State.val_high_eq_zero {f : Form} {s : State} (h : f.mode = .immediate ∨ s.cfg.memVal ≠ .full24) (ea : Addr) :
    (s.val f ea).toNat / 2 ^ 12 = 0 :=
  Nat.div_eq_of_lt (Nat.lt_succ_of_le (State.val_le h ea))

/-! ### Arithmetic results as numbers -/

/-- Subtraction of words is subtraction modulo 2^24 (R170, R172). -/
theorem sub_toNat_eq_emod (a b : Word) : ((a - b).toNat : Int) = ((a.toNat : Int) - b.toNat) % 2 ^ 24 := by
  have := b.isLt
  rw [BitVec.toNat_sub]
  omega

/-- The low 12 bits of a 24-bit sum are the sum modulo 4096 (R178). -/
theorem low12_add_toNat (a : Addr) (v : Word) : (low12 (a.setWidth 24 + v)).toNat = (a.toNat + v.toNat) % 4096 := by
  rw [low12_toNat, BitVec.toNat_add, zext24_toNat]
  omega

/-- The low 12 bits of a 24-bit difference are the difference modulo 4096 (R179). -/
theorem low12_sub_toNat (a : Addr) (v : Word) :
    ((low12 (a.setWidth 24 - v)).toNat : Int) = ((a.toNat : Int) - v.toNat) % 4096 := by
  have hsub := sub_toNat_eq_emod (a.setWidth 24) v
  rw [zext24_toNat] at hsub
  rw [low12_toNat]
  omega

/-! ### The statements on the accumulator -/

/-- Settles O20: exclusive or with all ones is the complement, and undoes itself. -/
theorem comComplementsTheAccumulator : Obligations.ComComplementsTheAccumulator := by
  refine ⟨fun _ => decode_standard_of_opcode .com, fun f s =>
    exec_every_mapped_of (i := .com f) (by simp [Instr.mnemonic]) fun ea hea hexec => ?_⟩
  refine ⟨s.acc ^^^ 0xFFFFFF, fun k hk => ?_, ?_, hexec s hea, ?_⟩
  · rw [xor_all_ones, BitVec.getLsbD_not]
    simp [hk]
  · rw [xor_all_ones, signed24_not]
  · refine (hexec _ ((s.resolve_with_acc _ _ _).trans hea)).trans ?_
    simp only [effectOf, State.setAcc, xor_xor_self]

/-- Settles O21: the bits of a conjunction, which is at most its operand. -/
theorem andMasksTheAccumulator : Obligations.AndMasksTheAccumulator := by
  refine ⟨fun _ => decode_standard_of_opcode .and, fun f s =>
    exec_every_mapped_of (i := .and f) (by simp [Instr.mnemonic]) fun ea hea hexec => ?_⟩
  refine ⟨ea, hea, _, fun k _ => BitVec.getLsbD_and, hexec s hea, fun hsmall => ?_⟩
  have hle : (s.acc &&& s.val f ea).toNat ≤ 0xFFF := by
    rw [BitVec.toNat_and]
    exact Nat.and_le_right.trans (State.val_le hsmall ea)
  exact ⟨hle, (signed24_nonneg_iff _).mpr (by omega)⟩

/-- Settles O22: the bits of a disjunction, which keeps the high part over an operand without one. -/
theorem orSetsAccumulatorBits : Obligations.OrSetsAccumulatorBits := by
  refine ⟨fun _ => decode_standard_of_opcode .or, fun f s =>
    exec_every_mapped_of (i := .or f) (by simp [Instr.mnemonic]) fun ea hea hexec => ?_⟩
  refine ⟨ea, hea, _, fun k _ => BitVec.getLsbD_or, hexec s hea, fun hsmall => ?_⟩
  calc (s.acc ||| s.val f ea).toNat / 2 ^ 12
      = s.acc.toNat / 2 ^ 12 ||| (s.val f ea).toNat / 2 ^ 12 := by rw [BitVec.toNat_or, Nat.or_div_two_pow]
    _ = s.acc.toNat / 2 ^ 12 := by rw [State.val_high_eq_zero hsmall, Nat.or_zero]

/-- Settles O23: the bits of an exclusive or, which keeps the high part over an operand without one, and undoes itself: the write
to ACC changes neither the address nor `Val`. -/
theorem xorTogglesAccumulatorBits : Obligations.XorTogglesAccumulatorBits := by
  refine ⟨fun _ => decode_standard_of_opcode .xor, fun f s =>
    exec_every_mapped_of (i := .xor f) (by simp [Instr.mnemonic]) fun ea hea hexec => ?_⟩
  refine ⟨ea, hea, _, fun k _ => BitVec.getLsbD_xor, hexec s hea, fun hsmall => ?_, ?_⟩
  · calc (s.acc ^^^ s.val f ea).toNat / 2 ^ 12
        = s.acc.toNat / 2 ^ 12 ^^^ (s.val f ea).toNat / 2 ^ 12 := by rw [BitVec.toNat_xor, Nat.xor_div_two_pow]
      _ = s.acc.toNat / 2 ^ 12 := by rw [State.val_high_eq_zero hsmall, Nat.xor_zero]
  · refine (hexec _ ((s.resolve_with_acc _ _ _).trans hea)).trans ?_
    have hval : State.val { s with acc := s.acc ^^^ s.val f ea, rs := .running } f ea = s.val f ea := rfl
    simp only [effectOf, State.setAcc, hval, xor_xor_self]

/-- Settles O17: addition of 24-bit words is addition modulo 2^24. -/
theorem addAddsModulo : Obligations.AddAddsModulo := by
  refine ⟨fun _ => decode_standard_of_opcode .add, fun f s =>
    exec_every_mapped_of (i := .add f) (by simp [Instr.mnemonic]) fun ea hea hexec => ?_⟩
  have hsum : BitVec.ofNat 24 ((s.acc.toNat + (s.val f ea).toNat) % 2 ^ 24) = s.acc + s.val f ea := by
    rw [← BitVec.toNat_add, BitVec.ofNat_toNat, BitVec.setWidth_eq]
  exact ⟨ea, hea, by rw [hsum]; exact hexec s hea⟩

/-- Settles O18: subtraction of 24-bit words is subtraction modulo 2^24. -/
theorem subSubtractsModulo : Obligations.SubSubtractsModulo := by
  refine ⟨fun _ => decode_standard_of_opcode .sub, fun f s =>
    exec_every_mapped_of (i := .sub f) (by simp [Instr.mnemonic]) fun ea hea hexec => ?_⟩
  exact ⟨ea, hea, _, sub_toNat_eq_emod _ _, hexec s hea⟩

/-- Settles O19: the effect reads neither the operand nor its address. -/
theorem clrClearsTheAccumulator : Obligations.ClrClearsTheAccumulator :=
  ⟨fun _ => decode_standard_of_opcode .clr, fun f s =>
    exec_every_mapped_of (i := .clr f) (by simp [Instr.mnemonic]) fun _ hea hexec => hexec s hea⟩

/-! ### The statements on the index registers -/

/-- Settles O24: the address and the sum are formed from the state before the write. -/
theorem addxAddsModulo : Obligations.AddxAddsModulo := by
  refine ⟨fun _ => decode_standard_of_opcode .addx, fun f s =>
    exec_every_mapped_of (i := .addx f) (by simp [Instr.mnemonic]) fun ea hea hexec => ?_⟩
  exact ⟨ea, hea, _, low12_add_toNat _ _, hexec s hea⟩

/-- Settles O25: the address and the difference are formed from the state before the write. -/
theorem subxSubtractsModulo : Obligations.SubxSubtractsModulo := by
  refine ⟨fun _ => decode_standard_of_opcode .subx, fun f s =>
    exec_every_mapped_of (i := .subx f) (by simp [Instr.mnemonic]) fun ea hea hexec => ?_⟩
  exact ⟨ea, hea, _, low12_sub_toNat _ _, hexec s hea⟩

/-- Settles O26: the effect reads neither the operand nor its address. -/
theorem clrxClearsTheIndexRegister : Obligations.ClrxClearsTheIndexRegister :=
  ⟨fun _ => decode_standard_of_opcode .clrx, fun f s =>
    exec_every_mapped_of (i := .clrx f) (by simp [Instr.mnemonic]) fun _ hea hexec => hexec s hea⟩

end Sys2Proof.Machine
end

section
/-! SUPPORT. Proofs of the statements of 44_control.md: HALT and NOP, the jumps, which are each a choice between J and NOP, the
run a HALT ends and the run a jump to itself keeps going. -/

namespace Sys2Proof.Machine

/-! ### HALT and NOP -/

/-- The first condition of the halt check: an ILLEGAL mode halts whatever the mnemonic (R136, D15). -/
theorem haltCheck_illegal (m : Option Mnemonic) {mode : Mode} {p : BitVec 4} (h : mode = .illegal p) (cls : Legality) :
    haltCheck m mode cls = .halted .illegalAddressingMode := by
  simp [haltCheck, h, isIllegalMode]

/-- Every instruction with an ILLEGAL selector halts and does nothing else (R136, R141, D15). -/
theorem exec_illegal {i : Instr} (s : State) {p : BitVec 4} (h : i.form.mode = .illegal p) :
    exec i s = .next { s with rs := .halted .illegalAddressingMode } := by
  have hclass : classify (some i.mnemonic) i.form.mode ≠ .legal := fun hl =>
    legalFor_mapped (classify_legal_iff.mp hl).2.2 p h
  rw [exec_eq, runInstr_not_legal hclass, State.conclude, haltCheck_illegal _ h]

/-- HALT in a mapped mode halts as such (R136, R143). -/
theorem haltCheck_halt {mode : Mode} (h : ∀ p, mode ≠ .illegal p) (cls : Legality) :
    haltCheck (some .halt) mode cls = .halted .haltInstruction := by
  simp [haltCheck, isIllegalMode_eq_false h]

/-- NOP, class Ignored, goes on RUNNING in a mapped mode (R135, R136). -/
theorem haltCheck_nop {mode : Mode} (h : ∀ p, mode ≠ .illegal p) :
    haltCheck (some .nop) mode (classify (some .nop) mode) = .running := by
  simp [haltCheck, classify, isIllegalMode_eq_false h]

/-- HALT in a mapped mode writes RS and nothing else (R191). -/
theorem exec_halt {f : Form} (s : State) (h : ∀ p, f.mode ≠ .illegal p) :
    exec (.halt f) s = .next { s with rs := .halted .haltInstruction } := by
  rw [exec_ignored s (.inl rfl), Instr.mnemonic, Instr.form, State.conclude, haltCheck_halt h]

/-- NOP in a mapped mode goes on RUNNING and writes nothing (R192). -/
theorem exec_nop {f : Form} (s : State) (h : ∀ p, f.mode ≠ .illegal p) :
    exec (.nop f) s = .next { s with rs := .running } := by
  rw [exec_ignored s (.inr rfl), Instr.mnemonic, Instr.form, State.conclude, haltCheck_nop h]

/-- Settles O28: the halt check on NOP, class Ignored, with a mapped and with an ILLEGAL selector. -/
theorem nopDoesNothing : Obligations.NopDoesNothing :=
  ⟨fun _ => decode_standard_of_opcode .nop, fun _ s => ⟨exec_nop s, fun _ => exec_illegal (i := .nop _) s⟩⟩

/-! ### The step and the run around an instruction -/

/-- The step of a running engine whose word at PC decodes to `i`: what `i` makes of the advanced state, and a record with the
mnemonic of `i` (R132, R138). -/
theorem step_executes {s t : State} {i : Instr} (hrun : s.rs = .running) (hpc : s.pc.toNat ≤ 4095)
    (hd : decode s.cfg.opTable (s.mem.read s.pc.toNat) = .instr i) (hexec : exec i s.advance = .next t) :
    ∃ r : TraceRecord, r.mnemonic = some i.mnemonic ∧ step s = .next (t.emit r) := by
  obtain ⟨t', ht', hstep⟩ := ((stepRunsTheDecodedInstruction s hrun).2 hpc).1 i hd
  obtain rfl : t' = t := Host.Outcome.next.inj (ht'.symm.trans hexec)
  exact ⟨_, rfl, hstep⟩

/-- What holds only of running states and is kept by a step keeps the run without an end, whatever the fuel (R140). -/
theorem run_outOfFuel_of_invariant {P : State → Prop} (hrun : ∀ s, P s → s.rs = .running)
    (hstep : ∀ s, P s → ∃ t, step s = .next t ∧ P t) (n : Nat) {s : State} (h : P s) : ∃ t, run n s = .outOfFuel t := by
  induction n generalizing s with
  | zero => exact ⟨s, run_zero (hrun s h)⟩
  | succ n ih =>
    obtain ⟨t, hst, ht⟩ := hstep s h
    rw [run_succ (hrun s h) hst]
    exact ih ht

/-- Settles O27: HALT and its halt check; the step that runs it leaves RS HALTED, which ends the run. -/
theorem haltEndsTheRun : Obligations.HaltEndsTheRun := by
  refine ⟨fun _ => decode_standard_of_opcode .halt, fun f s => ⟨exec_halt s, fun _ => exec_illegal (i := .halt f) s⟩,
    fun f s hrun hpc hmode hd => ?_⟩
  obtain ⟨r, hr, hstep⟩ := step_executes hrun hpc hd (exec_halt s.advance hmode)
  exact ⟨r, hr, fun n => (run_succ hrun hstep n).trans (run_ended (by simp) n)⟩

/-! ### The jumps -/

/-- J in a mode that resolves, other than IMMEDIATE, sets PC to the effective address (R193). -/
theorem exec_j {f : Form} {s : State} {ea : Addr} (himm : f.mode ≠ .immediate) (hea : s.resolve f = some ea) :
    exec (.j f) s = .next { s with pc := BitVec.ofNat 13 ea.toNat, rs := .running } := by
  have hmode : ∀ p, f.mode ≠ .illegal p := fun p hp => nomatch (s.resolve_illegal hp).symm.trans hea
  obtain ⟨ea', hea', hexec⟩ := (exec_but_immediate (i := .j f) s (by simp [Instr.mnemonic])).1 hmode himm
  obtain rfl : ea = ea' := Option.some.inj (hea.symm.trans hea')
  rw [hexec, effectOf, State.setPc, BitVec.ofNat_toNat]

/-- A conditional jump in a mode it admits does what J does when its condition holds of ACC, and what NOP does when not (R190). -/
theorem exec_conditional_jump {i : Instr} {f : Form} {test : Word → Bool} {P : Prop} (s : State)
    (hi : i ∈ [Instr.jz f, .jn f, .jp f]) (heffect : ∀ ea, effectOf i ea s = if test s.acc then s.setPc ea else s)
    (htest : test s.acc = true ↔ P) (hmode : ∀ p, f.mode ≠ .illegal p) (himm : f.mode ≠ .immediate) :
    (P → exec i s = exec (.j f) s) ∧ (¬P → exec i s = exec (.nop f) s) := by
  obtain ⟨hjump, rfl⟩ : i.mnemonic ∈ [Mnemonic.st, .em, .j, .jz, .jn, .jp] ∧ i.form = f := by
    obtain rfl | rfl | rfl : i = .jz f ∨ i = .jn f ∨ i = .jp f := by simpa using hi
    all_goals simp [Instr.mnemonic, Instr.form]
  obtain ⟨ea, hea, hexec⟩ := (exec_but_immediate s hjump).1 hmode himm
  rw [heffect] at hexec
  refine ⟨fun hP => ?_, fun hP => ?_⟩
  · rw [hexec, if_pos (htest.mpr hP), exec_j himm hea, State.setPc, BitVec.ofNat_toNat]
  · rw [hexec, if_neg (mt htest.mp hP), exec_nop s hmode]

section
variable {f : Form} (s : State) (hmode : ∀ p, f.mode ≠ .illegal p) (himm : f.mode ≠ .immediate)
include hmode himm

/-- JZ is J when ACC is 0 and NOP when not (R194). -/
theorem exec_jz : (s.acc.toNat = 0 → exec (.jz f) s = exec (.j f) s) ∧
    (s.acc.toNat ≠ 0 → exec (.jz f) s = exec (.nop f) s) :=
  exec_conditional_jump s (by simp) (fun _ => rfl) (isZero_iff _) hmode himm

/-- JN is J when ACC is negative and NOP when not (R195). -/
theorem exec_jn : (2 ^ 23 ≤ s.acc.toNat → exec (.jn f) s = exec (.j f) s) ∧
    (¬2 ^ 23 ≤ s.acc.toNat → exec (.jn f) s = exec (.nop f) s) :=
  exec_conditional_jump s (by simp) (fun _ => rfl) (isNegative_iff _) hmode himm

/-- JP is J when ACC is not negative and NOP when it is (R196). -/
theorem exec_jp : (s.acc.toNat < 2 ^ 23 → exec (.jp f) s = exec (.j f) s) ∧
    (¬s.acc.toNat < 2 ^ 23 → exec (.jp f) s = exec (.nop f) s) :=
  exec_conditional_jump s (by simp) (fun _ => rfl) (isNonNegative_iff _) hmode himm

/-- What J and NOP do in a mode J admits, as changes of PC and RS: the two sides of a conditional jump. -/
theorem exec_j_and_nop : ∃ ea, s.resolve f = some ea ∧
    exec (.j f) s = .next { s with pc := BitVec.ofNat 13 ea.toNat, rs := .running } ∧
    exec (.nop f) s = .next { s with rs := .running } := by
  obtain ⟨ea, hea⟩ := s.resolve_some hmode
  exact ⟨ea, hea, exec_j himm hea, exec_nop s hmode⟩

end

/-- Settles O30: JZ is J or NOP as ACC is 0 or not. -/
theorem jumpIfZero : Obligations.JumpIfZero := by
  refine ⟨fun _ => decode_standard_of_opcode .jz, fun f s =>
    ⟨fun hmode himm => ?_, (exec_but_immediate (i := .jz f) s (by simp [Instr.mnemonic])).2⟩⟩
  obtain ⟨ea, hea, hj, hnop⟩ := exec_j_and_nop s hmode himm
  obtain ⟨htaken, hskipped⟩ := exec_jz s hmode himm
  exact ⟨ea, hea, fun hz => (htaken hz).trans hj, fun hz => (hskipped hz).trans hnop⟩

/-- Settles O31: JN is J or NOP as ACC is from 2^23 on or below, which is its sign. -/
theorem jumpIfNegative : Obligations.JumpIfNegative := by
  refine ⟨fun _ => decode_standard_of_opcode .jn, fun f s =>
    ⟨fun hmode himm => ?_, (exec_but_immediate (i := .jn f) s (by simp [Instr.mnemonic])).2⟩⟩
  obtain ⟨ea, hea, hj, hnop⟩ := exec_j_and_nop s hmode himm
  obtain ⟨htaken, hskipped⟩ := exec_jn s hmode himm
  have hsign : 2 ^ 23 ≤ s.acc.toNat ↔ signed24 s.acc < 0 := by
    rw [← Nat.not_lt, ← signed24_nonneg_iff, Int.not_le]
  exact ⟨ea, hea, fun hneg => (htaken hneg).trans hj, fun hpos => (hskipped hpos.not_ge).trans hnop, hsign⟩

/-- Settles O32: JP is J or NOP as ACC is below 2^23 or from there on, the choice opposite to JN's. -/
theorem jumpIfNonNegative : Obligations.JumpIfNonNegative := by
  refine ⟨fun _ => decode_standard_of_opcode .jp, fun f s =>
    ⟨fun hmode himm => ?_, (exec_but_immediate (i := .jp f) s (by simp [Instr.mnemonic])).2, fun hmode himm => ?_⟩⟩
  · obtain ⟨ea, hea, hj, hnop⟩ := exec_j_and_nop s hmode himm
    obtain ⟨htaken, hskipped⟩ := exec_jp s hmode himm
    exact ⟨ea, hea, fun hpos => (htaken hpos).trans hj, fun hneg => (hskipped hneg.not_gt).trans hnop,
      (signed24_nonneg_iff s.acc).symm⟩
  · obtain hpos | hneg := Nat.lt_or_ge s.acc.toNat (2 ^ 23)
    · exact .inr ⟨(exec_jn s hmode himm).2 hpos.not_ge, (exec_jp s hmode himm).1 hpos⟩
    · exact .inl ⟨(exec_jn s hmode himm).1 hneg, (exec_jp s hmode himm).2 hneg.not_gt⟩

/-! ### A jump to itself -/

/-- A running engine at a DIRECT jump whose operand is its own address. -/
structure JumpsToItself (f : Form) (s : State) : Prop where
  running : s.rs = .running
  direct : f.mode = .direct
  atTarget : s.pc.toNat = f.opnd.toNat
  decodes : decode s.cfg.opTable (s.mem.read s.pc.toNat) = .instr (.j f)

/-- The step of a jump to itself changes the trace only, so the engine is there again (R193). -/
theorem JumpsToItself.step_next {f : Form} {s : State} (h : JumpsToItself f s) : ∃ t, step s = .next t ∧ JumpsToItself f t := by
  have himm : f.mode ≠ .immediate := by simp [h.direct]
  have hpc : BitVec.ofNat 13 f.opnd.toNat = s.pc := by rw [← h.atTarget, BitVec.ofNat_toNat, BitVec.setWidth_eq]
  have hexec := exec_j himm (s.advance.resolve_direct h.direct)
  rw [hpc] at hexec
  obtain ⟨r, -, hstep⟩ := step_executes h.running (h.atTarget ▸ addr_le f.opnd) h.decodes hexec
  exact ⟨_, hstep, rfl, h.direct, h.atTarget, h.decodes⟩

/-- Settles O29: J at the address each mode resolves to; and a jump to itself as an invariant of the run. -/
theorem jumpSetsTheProgramCounter : Obligations.JumpSetsTheProgramCounter := by
  refine ⟨fun _ => decode_standard_of_opcode .j, fun f s => ⟨fun hmode himm => ?_,
    (exec_but_immediate (i := .j f) s (by simp [Instr.mnemonic])).2, fun hind => ?_, fun hidx hmod hx => ?_⟩,
    fun f s hrun hdir hpc hd n => ?_⟩
  · obtain ⟨ea, hea, hj, -⟩ := exec_j_and_nop s hmode himm
    exact ⟨ea, hea, hj⟩
  · rw [exec_j (by simp [hind]) (s.resolve_indirect hind), high12_toNat, State.memRead]
  · rw [exec_j (by simp [hidx]) (s.resolve_indexed hidx), indexedSum_toNat, hmod, hx]
    rfl
  · exact run_outOfFuel_of_invariant (fun _ => JumpsToItself.running) (fun _ => JumpsToItself.step_next) n ⟨hrun, hdir, hpc, hd⟩

end Sys2Proof.Machine
end

section
/-! SUPPORT. Proof of the statement of 60_exceptions.md: soundness as an invariant of the step. -/

namespace Sys2Proof.Machine

/-! ### The three parts of soundness -/

/-- An instruction keeps memory canonical: it writes no word, or one word at a 12-bit address (R29). -/
theorem exec_mem_wf {i : Instr} {s t : State} (h : exec i s = .next t) (hs : s.mem.wf = true) : t.mem.wf = true := by
  obtain ⟨-, ea, -, rfl⟩ | ⟨-, rfl⟩ := exec_cases h
  · obtain hmem | ⟨-, v, hmem⟩ := effectOf_mem i ea s
    · exact hmem ▸ hs
    · exact hmem ▸ Memory.write_wf hs (addr_le ea) v
  · exact hs

/-- PC is in range when it names a word, whatever `PC_WRAP` is (R20). -/
theorem State.pcInRange_of_le {s : State} (h : s.pc.toNat ≤ 4095) : s.pcInRange = true := by
  simp [State.pcInRange, h]

/-- Beyond memory PC is in range only as 4096, under `PC_WRAP = FAULT` (R25). -/
theorem State.pcInRange_beyond {s : State} (h : s.pcInRange = true) (hgt : 4095 < s.pc.toNat) :
    s.cfg.pcWrap = .fault ∧ s.pc.toNat = 4096 := by
  simpa [State.pcInRange, hgt.not_ge] using h

/-- The advance from a PC that names a word leaves PC in range: under `FAULT` it may reach 4096 (R133). -/
theorem State.advance_pcInRange {s : State} (h : s.pc.toNat ≤ 4095) : s.advance.pcInRange = true := by
  cases hw : s.cfg.pcWrap with
  | wrap => exact State.pcInRange_of_le (State.advance_pc_le hw)
  | fault =>
    have hnext : (nextPc .fault s.pc).toNat ≤ 4095 ∨ (nextPc .fault s.pc).toNat = 4096 := by
      rw [nextPc_fault_toNat h]
      omega
    simpa [State.pcInRange, hw] using hnext

/-- An instruction keeps PC in range: a jump's target is a 12-bit address (R190). -/
theorem exec_pcInRange {i : Instr} {s t : State} (h : exec i s = .next t) (hs : s.pcInRange = true) :
    t.pcInRange = true := by
  obtain hpc | ⟨ea, hpc⟩ := exec_pc h
  · rwa [State.pcInRange, hpc, (exec_frame h).1]
  · exact State.pcInRange_of_le (by rw [hpc, zext13_toNat]; exact addr_le ea)

/-- A run state that the halt check gave is no fault (R136). -/
theorem State.faultExplained_of_haltCheck {s : State} {m : Option Mnemonic} {mode : Mode} {cls : Legality}
    (h : s.rs = haltCheck m mode cls) : s.faultExplained = true := by
  unfold State.faultExplained
  split
  · next e he => exact absurd (h.symm.trans he) (haltCheck_ne_faulted m mode cls e)
  · rfl

/-! ### Soundness after each part of a step -/

/-- The fetch fault of a PC in range is the one at 4096 under `PC_WRAP = FAULT` (R213). -/
theorem State.raiseFetchFault_sound {s : State} (hmem : s.mem.wf = true) (hpc : s.pcInRange = true)
    (hgt : 4095 < s.pc.toNat) : (s.raiseFetchFault (.addressOutOfRange s.pc.toNat)).Sound := by
  obtain ⟨hw, h4096⟩ := State.pcInRange_beyond hpc hgt
  exact ⟨hmem, hpc, by simp [State.faultExplained, hw, h4096]⟩

/-- An instruction gives a sound state from canonical memory and a PC in range. -/
theorem exec_sound {i : Instr} {s t : State} (hmem : s.mem.wf = true) (hpc : s.pcInRange = true)
    (h : exec i s = .next t) : t.Sound :=
  ⟨exec_mem_wf h hmem, exec_pcInRange h hpc, State.faultExplained_of_haltCheck (exec_frame h).2.2⟩

/-- The halt check gives a sound state from canonical memory and a PC in range. -/
theorem State.conclude_sound {s : State} (hmem : s.mem.wf = true) (hpc : s.pcInRange = true) (m : Option Mnemonic)
    (mode : Mode) : (s.conclude m mode).Sound :=
  ⟨hmem, hpc, State.faultExplained_of_haltCheck (s.conclude_rs m mode)⟩

/-- Soundness does not look at the trace. -/
theorem State.emit_sound {s : State} (h : s.Sound) (r : TraceRecord) : (s.emit r).Sound := h

/-- Settles O46: only a running state steps; its fetch faults at 4096, or the advanced state executes the word or halts at its
undefined opcode, and the record appended does not matter. -/
theorem everyStepKeepsSoundness : Obligations.EveryStepKeepsSoundness := by
  rintro s t ⟨hmem, hpc, -⟩ h
  have hrun : s.rs = .running := by
    by_contra hne
    exact nomatch (step_not_running hne).symm.trans h
  obtain ⟨hgt, hfault⟩ | ⟨hle, u, hstep, hcases⟩ := step_running_cases hrun
  · obtain rfl : _ = t := Host.Outcome.next.inj (hfault.symm.trans h)
    exact State.raiseFetchFault_sound hmem hpc hgt
  · obtain rfl : _ = t := Host.Outcome.next.inj (hstep.symm.trans h)
    have hadv := State.advance_pcInRange hle
    refine State.emit_sound ?_ _
    obtain ⟨i, -, hexec⟩ | ⟨_, _, -, rfl⟩ := hcases
    · exact exec_sound (s := s.advance) hmem hadv hexec
    · exact State.conclude_sound (s := s.advance) hmem hadv none _

end Sys2Proof.Machine
end

section
/-! SUPPORT. Proof of the statement of 70_reset_and_hazards.md: a load that ends normally leaves a canonical image, and the launch
is the reset state with that image and the resolved start address. -/

namespace Sys2Proof.Machine

/-! ### The image a load leaves -/

/-- A first line that loads has a good checksum, and ends the load, sets the base or places its data; only the last two go on to
the next line (R55 to R59, R64). -/
theorem loadLines_cons_ok {idx : Nat} {st st' : LoaderState} {L : List Char} {rest : List (List Char)}
    (h : loadLines idx st (L :: rest) = .ok st') :
    ∃ sum ty, checksum L = some sum ∧ sum % 256 = 0 ∧ hexField L 7 2 = some ty ∧
      ((ty = 1 ∧ st' = st) ∨
        ∃ u, (ty = 2 ∧ loadBase idx L st = .ok u ∨ ty ≠ 1 ∧ ty ≠ 2 ∧ loadData idx L st = .ok u) ∧
          loadLines (idx + 1) u rest = .ok st') := by
  rw [loadLines] at h
  split at h
  · cases h
  · rename_i sum hsum
    split_ifs at h with hbad
    refine ⟨sum, ?_⟩
    split at h
    · cases h
    · rename_i hty
      cases h
      exact ⟨1, hsum, not_not.mp hbad, hty, .inl ⟨rfl, rfl⟩⟩
    · rename_i hty
      split at h
      · rename_i u hu
        exact ⟨2, hsum, not_not.mp hbad, hty, .inr ⟨u, .inl ⟨rfl, hu⟩, h⟩⟩
      · cases h
    · rename_i ty h1 h2 hty
      split at h
      · rename_i u hu
        exact ⟨ty, hsum, not_not.mp hbad, hty, .inr ⟨u, .inr ⟨h1, h2, hu⟩, h⟩⟩
      · cases h

/-- A data record keeps the image canonical: it writes groups to it (R59). -/
theorem loadData_wf {idx : Nat} {L : List Char} {st st' : LoaderState} (h : loadData idx L st = .ok st')
    (hm : st.mem.wf = true) : st'.mem.wf = true := by
  obtain ⟨_, _, _, -, -, -, -, hwrite, rfl⟩ := loadData_ok h
  exact writeGroups_wf hm hwrite

/-- A base-offset record leaves the image alone (R58). -/
theorem loadBase_mem {idx : Nat} {L : List Char} {st st' : LoaderState} (h : loadBase idx L st = .ok st') :
    st'.mem = st.mem := by
  obtain ⟨_, -, rfl⟩ := loadBase_ok h
  rfl

/-- Lines that load keep the image canonical. -/
theorem loadLines_wf : ∀ {lines : List (List Char)} {idx : Nat} {st st' : LoaderState},
    loadLines idx st lines = .ok st' → st.mem.wf = true → st'.mem.wf = true
  | [], _, _, _, h, hm => by cases h; exact hm
  | L :: rest, _, _, _, h, hm => by
    obtain ⟨_, _, -, -, -, ⟨-, rfl⟩ | ⟨u, hu, hrest⟩⟩ := loadLines_cons_ok h
    · exact hm
    · refine loadLines_wf hrest ?_
      obtain ⟨-, hbase⟩ | ⟨-, -, hdata⟩ := hu
      · exact loadBase_mem hbase ▸ hm
      · exact loadData_wf hdata hm

/-! ### The resolved start address and the start state -/

/-- The resolved start address is the override when given, else the discovered one (R62). -/
theorem eq_resolved_start {override : Option Nat} {disc start : Nat} (hsome : ∀ v, override = some v → start = v)
    (hnone : override = none → start = disc) : override.getD disc = start := by
  cases override with
  | none => exact (hnone rfl).symm
  | some v => exact (hsome v rfl).symm

section
variable {lines : List (List Char)} {override : Option Nat} {st : LoaderState}

/-- A resolved start address above 4095 refuses the load (R63). -/
theorem load_start_refused (h : loadLines 0 LoaderState.initial lines = .ok st) (hstart : 4095 < override.getD st.disc) :
    load lines override = .error (.loadRefused (.start (override.getD st.disc))) := by
  simp only [load, h, if_neg (Nat.not_le.mpr hstart)]

/-- A load with its start address in memory yields the image and that address (R62, R63). -/
theorem load_ok (h : loadLines 0 LoaderState.initial lines = .ok st) (hstart : override.getD st.disc ≤ 4095) :
    load lines override = .ok { mem := st.mem, start := BitVec.ofNat 12 (override.getD st.disc) } := by
  simp only [load, h, if_pos hstart]

/-- The launch is the reset state with the parameters, the image and the start address put in (R32, R240). -/
theorem launch_ok {r : Loaded} (cfg : Config) (h : load lines override = .ok r) :
    launch cfg lines override = .ok { State.reset with cfg := cfg, pc := r.start.setWidth 13, mem := r.mem } := by
  simp only [launch, h, State.reset]

end

/-- Settles O56: the start address is resolved first; in range it is a 12-bit address, which PC keeps, and the image is
canonical because the load began with an empty one. -/
theorem launchStartState : Obligations.LaunchStartState := by
  intro cfg lines override st start hlines hsome hnone
  obtain rfl := eq_resolved_start hsome hnone
  refine ⟨fun hgt => launch_error cfg (load_start_refused hlines hgt), fun hle => ⟨_, launch_ok cfg (load_ok hlines hle), ?_⟩⟩
  have hpc : ((BitVec.ofNat 12 (override.getD st.disc)).setWidth 13).toNat = override.getD st.disc := by
    rw [zext13_toNat, BitVec.toNat_ofNat]
    omega
  have hsound : State.Sound { State.reset with
      cfg := cfg, pc := (BitVec.ofNat 12 (override.getD st.disc)).setWidth 13, mem := st.mem } :=
    ⟨loadLines_wf hlines rfl, State.pcInRange_of_le (hpc.trans_le hle), rfl⟩
  exact ⟨hsound, rfl, hpc, rfl, rfl, rfl, rfl, rfl, rfl, rfl, rfl⟩

end Sys2Proof.Machine
end

section
/-! SUPPORT. Proofs of the frames of the instructions and of the table of legal modes: what executing an instruction can do to each
part of the state, said once, and from it what each group of instructions leaves unchanged. -/

namespace Sys2Proof.Machine

/-! ### What executing an instruction can do to each part of the state -/

section
variable {i : Instr} {s t : State} (h : exec i s = .next t)
include h

/-- An instruction leaves memory alone or is a store or exchange in a legal mode, which writes one word at its effective address
(R29, R41). -/
theorem exec_mem : t.mem = s.mem ∨
    (classify (some i.mnemonic) i.form.mode = .legal ∧ i.mnemonic ∈ [Mnemonic.st, .em, .stx, .emx] ∧
      ∃ ea v, s.resolve i.form = some ea ∧ t.mem = s.mem.write ea.toNat v) := by
  obtain ⟨hlegal, ea, hea, rfl⟩ | ⟨-, rfl⟩ := exec_cases h
  · obtain hmem | ⟨hm, v, hmem⟩ := effectOf_mem i ea s
    · exact .inl hmem
    · exact .inr ⟨hlegal, hm, ea, v, hea, hmem⟩
  · exact .inl rfl

/-- An instruction leaves PC alone or is a jump in a legal mode, which sets it to its effective address (R190). -/
theorem exec_pc_or_jump : t.pc = s.pc ∨
    (classify (some i.mnemonic) i.form.mode = .legal ∧ i.mnemonic ∈ [Mnemonic.j, .jz, .jn, .jp] ∧
      ∃ ea, s.resolve i.form = some ea ∧ t.pc = ea.setWidth 13) := by
  obtain ⟨hlegal, ea, hea, rfl⟩ | ⟨-, rfl⟩ := exec_cases h
  · obtain hpc | ⟨hm, hpc⟩ := effectOf_pc i ea s
    · exact .inl hpc
    · exact .inr ⟨hlegal, hm, ea, hea, hpc⟩
  · exact .inl rfl

/-- An instruction leaves ACC alone or is one of its writers (R21). -/
theorem exec_acc : t.acc = s.acc ∨ i.mnemonic ∈ [Mnemonic.ld, .em, .add, .sub, .clr, .com, .and, .or, .xor] := by
  obtain ⟨-, ea, -, rfl⟩ | ⟨-, rfl⟩ := exec_cases h
  · exact effectOf_acc i ea s
  · exact .inl rfl

/-- An instruction leaves an index register alone or is one of the writers of the selected one (R23). -/
theorem exec_x (n : XReg) : t.x.get n = s.x.get n ∨
    (i.mnemonic ∈ [Mnemonic.ldx, .emx, .addx, .subx, .clrx] ∧ i.form.xsel = n) := by
  obtain ⟨-, ea, -, rfl⟩ | ⟨-, rfl⟩ := exec_cases h
  · exact effectOf_x i ea s n
  · exact .inl rfl

/-- An instruction that stops the engine writes RS and nothing else (R137, R218). -/
theorem exec_stopped (hstop : t.rs ≠ .running) : t = { s with rs := t.rs } := by
  obtain ⟨-, ea, -, rfl⟩ | ⟨-, rfl⟩ := exec_cases h
  · exact absurd rfl hstop
  · rfl

end

/-- Index registers that read alike are equal. -/
theorem XRegs.eq_of_get_eq {x y : XRegs} (h : ∀ n, x.get n = y.get n) : x = y := by
  obtain ⟨_, _, _, _⟩ := x
  obtain ⟨_, _, _, _⟩ := y
  exact XRegs.mk.injEq .. ▸ ⟨h .x0, h .x1, h .x2, h .x3⟩

/-! ### What a group of instructions without a writer leaves unchanged -/

section
variable {i : Instr} {s t : State} {group : List Mnemonic} (h : exec i s = .next t) (hm : i.mnemonic ∈ group)
include h hm

theorem exec_mem_frame (hgroup : ∀ m ∈ group, m ∉ [Mnemonic.st, .em, .stx, .emx]) : t.mem = s.mem :=
  (exec_mem h).resolve_right fun ⟨_, hw, _⟩ => hgroup _ hm hw

theorem exec_pc_frame (hgroup : ∀ m ∈ group, m ∉ [Mnemonic.j, .jz, .jn, .jp]) : t.pc = s.pc :=
  (exec_pc_or_jump h).resolve_right fun ⟨_, hw, _⟩ => hgroup _ hm hw

theorem exec_acc_frame (hgroup : ∀ m ∈ group, m ∉ [Mnemonic.ld, .em, .add, .sub, .clr, .com, .and, .or, .xor]) :
    t.acc = s.acc :=
  (exec_acc h).resolve_right (hgroup _ hm)

theorem exec_x_frame (hgroup : ∀ m ∈ group, m ∉ [Mnemonic.ldx, .emx, .addx, .subx, .clrx]) : t.x = s.x :=
  XRegs.eq_of_get_eq fun n => (exec_x h n).resolve_right fun ⟨hw, _⟩ => hgroup _ hm hw

end

/-! ### The frames of the instruction groups -/

/-- Settles O33: none of these instructions writes an index register, PC or memory. -/
theorem accumulatorInstructionsFrame : Obligations.AccumulatorInstructionsFrame := by
  intro i s t hm h
  obtain ⟨hcfg, htrace, -⟩ := exec_frame h
  have hmem : t.mem = s.mem := exec_mem_frame h hm (by decide)
  exact ⟨exec_x_frame h hm (by decide), exec_pc_frame h hm (by decide), hcfg, htrace, fun a => by rw [hmem]⟩

/-- Settles O34: none of these instructions writes ACC, PC or memory, and each writes the selected index register only. -/
theorem indexInstructionsFrame : Obligations.IndexInstructionsFrame := by
  intro i s t hm h
  obtain ⟨hcfg, htrace, -⟩ := exec_frame h
  have hmem : t.mem = s.mem := exec_mem_frame h hm (by decide)
  have hx : ∀ k, k ≠ i.form.xsel → t.x.get k = s.x.get k := fun k hk =>
    (exec_x h k).resolve_right fun ⟨_, hsel⟩ => hk hsel.symm
  exact ⟨exec_acc_frame h hm (by decide), hx, exec_pc_frame h hm (by decide), hcfg, htrace, fun a => by rw [hmem]⟩

/-- Settles O35: the one word written is at the resolved address, and only in a legal mode, in which the engine goes on RUNNING;
of the four only EM is a writer of ACC and only EMX of an index register. -/
theorem storingInstructionsFrame : Obligations.StoringInstructionsFrame := by
  intro i s t hm hwf h
  obtain ⟨hcfg, htrace, -⟩ := exec_frame h
  refine ⟨fun ea hea a ha => ?_, fun hstop a => ?_, fun hem => ?_, fun k hk => ?_, exec_pc_frame h hm (by decide), hcfg, htrace⟩
  · obtain hmem | ⟨-, -, ea', v, hea', hmem⟩ := exec_mem h
    · rw [hmem]
    · obtain rfl : ea = ea' := Option.some.inj (hea.symm.trans hea')
      rw [hmem, Memory.read_write_ne hwf ha]
  · rw [exec_stopped h hstop]
  · have only_em : ∀ m ∈ [Mnemonic.st, .em, .stx, .emx],
        m ∈ [Mnemonic.ld, .em, .add, .sub, .clr, .com, .and, .or, .xor] → m = .em := by decide
    exact (exec_acc h).resolve_right fun hw => hem (only_em _ hm hw)
  · have only_emx : ∀ m ∈ [Mnemonic.st, .em, .stx, .emx],
        m ∈ [Mnemonic.ldx, .emx, .addx, .subx, .clrx] → m = .emx := by decide
    exact (exec_x h k).resolve_right fun ⟨hw, hsel⟩ => hk.elim (· (only_emx _ hm hw)) (· hsel.symm)

/-- Settles O36: none of these instructions writes a register or memory, and only the jumps write PC. -/
theorem controlInstructionsFrame : Obligations.ControlInstructionsFrame := by
  intro i s t hm h
  obtain ⟨hcfg, htrace, -⟩ := exec_frame h
  have hmem : t.mem = s.mem := exec_mem_frame h hm (by decide)
  exact ⟨exec_acc_frame h hm (by decide), exec_x_frame h hm (by decide), hcfg, htrace, fun a => by rw [hmem],
    fun hstill => exec_pc_frame h hstill (by decide)⟩

/-! ### The table of legal modes -/

/-- The indexed and indirect modes are rejected by the index loads, stores and exchanges, and by no other instruction (R141, D14). -/
theorem legalFor_indexed_indirect_eq_false_iff {m : Mnemonic} {mode : Mode}
    (h : mode ∈ [Mode.indexed, .indirect, .indexedIndirect]) :
    legalFor m mode = false ↔ m ∈ [Mnemonic.ldx, .stx, .emx] := by
  obtain rfl | rfl | rfl : mode = .indexed ∨ mode = .indirect ∨ mode = .indexedIndirect := by simpa using h
  all_goals cases m <;> decide

/-- The table of R141 read as its rejected entries. -/
theorem legalFor_eq_false_iff {m : Mnemonic} {mode : Mode} :
    legalFor m mode = false ↔ (∃ p, mode = .illegal p) ∨
      (mode = .immediate ∧ m ∈ [Mnemonic.st, .em, .stx, .emx, .j, .jz, .jn, .jp]) ∨
      (mode ∈ [Mode.indexed, .indirect, .indexedIndirect] ∧ m ∈ [Mnemonic.ldx, .stx, .emx]) := by
  cases mode with
  | illegal p => simp [Bool.eq_false_iff.mpr fun hl => legalFor_mapped hl p rfl]
  | direct => cases m <;> simp [legalFor]
  | immediate => simp [legalFor_immediate_eq_false_iff]
  | indexed | indirect | indexedIndirect => simp [legalFor_indexed_indirect_eq_false_iff]

/-- Settles O37: the rejected entries of the table halt, and in every other mode the instruction does its effect and goes on. -/
theorem rejectedModesHalt : Obligations.RejectedModesHalt := by
  intro i s hm
  have h1 : i.mnemonic ≠ .halt := by rintro h; simp [h] at hm
  have h2 : i.mnemonic ≠ .nop := by rintro h; simp [h] at hm
  rw [← legalFor_eq_false_iff, Bool.not_eq_false]
  refine ⟨exec_rejected s h1 h2, fun hlegal => ?_⟩
  obtain ⟨ea, -, hexec⟩ := exec_admitted s h1 h2 hlegal
  exact ⟨_, hexec, rfl⟩

end Sys2Proof.Machine
end

section
/-! SUPPORT. Proofs of the statements of 41_sequencer.md and 10_state.md about every step: PC, the run state, the record, who writes
memory and the registers, and the run; read off an inversion of the step. -/

namespace Sys2Proof.Machine

/-! ### What a step that answered a next state did -/

/-- Only a running engine makes a step (R131). -/
theorem running_of_step {s t : State} (h : step s = .next t) : s.rs = .running := by
  by_contra hne
  exact nomatch (step_not_running hne).symm.trans h

/-- A step with PC beyond memory is the fetch fault (R132, R213). -/
theorem step_beyond {s t : State} (h : step s = .next t) (hpc : 4095 < s.pc.toNat) :
    t = s.raiseFetchFault (.addressOutOfRange s.pc.toNat) := by
  obtain ⟨-, hfault⟩ | ⟨hle, -⟩ := step_running_cases (running_of_step h)
  · exact Host.Outcome.next.inj (h.symm.trans hfault)
  · omega

/-- A step with PC in memory executes the decoded instruction on the advanced state, or only applies the halt check to it when the
opcode is undefined, and appends the record (R132 to R138). -/
theorem step_inside {s t : State} (h : step s = .next t) (hpc : s.pc.toNat ≤ 4095) :
    ∃ u : State, t = u.emit (u.record s.pc (s.control (s.mem.read s.pc.toNat))) ∧
      ((∃ i, decode s.cfg.opTable (s.mem.read s.pc.toNat) = .instr i ∧ exec i s.advance = .next u) ∨
       (∃ cat op, decode s.cfg.opTable (s.mem.read s.pc.toNat) = .undefinedOpcode cat op ∧
          u = s.advance.conclude none (formOf (s.mem.read s.pc.toNat)).mode)) := by
  obtain ⟨hgt, -⟩ | ⟨-, u, hstep, hcases⟩ := step_running_cases (running_of_step h)
  · omega
  · exact ⟨u, Host.Outcome.next.inj (h.symm.trans hstep), hcases⟩

/-- A step executes a decoded instruction on the advanced state, or keeps the registers, memory and the parameters. -/
theorem step_executes_or_keeps {s t : State} (h : step s = .next t) :
    (∃ i u r, decode s.cfg.opTable (s.mem.read s.pc.toNat) = .instr i ∧ exec i s.advance = .next u ∧ t = u.emit r) ∨
    (t.acc = s.acc ∧ t.x = s.x ∧ t.mem = s.mem ∧ t.cfg = s.cfg) := by
  obtain hle | hgt := le_or_gt s.pc.toNat 4095
  · obtain ⟨u, rfl, ⟨i, hi, hexec⟩ | ⟨_, _, -, rfl⟩⟩ := step_inside h hle
    · exact .inl ⟨i, u, _, hi, hexec, rfl⟩
    · exact .inr ⟨rfl, rfl, rfl, rfl⟩
  · obtain rfl := step_beyond h hgt
    exact .inr ⟨rfl, rfl, rfl, rfl⟩

/-- Settles O39: the step looks at RS first. -/
theorem noStepAfterTheEnd : Obligations.NoStepAfterTheEnd := by
  refine fun s => ⟨⟨fun h hrun => ?_, step_not_running⟩, fun hne t h => hne (running_of_step h)⟩
  obtain ⟨t, ht⟩ := step_next hrun
  exact nomatch h.symm.trans ht

/-! ### The program counter -/

/-- `Next(pc0)` for a PC in memory, under either value of `PC_WRAP` (R133, D17). -/
theorem nextPc_toNat {w : PcWrap} {pc : BitVec 13} {n : Nat} (hpc : pc.toNat ≤ 4095)
    (hwrap : w = .wrap → n = (pc.toNat + 1) % 4096) (hfault : w = .fault → n = pc.toNat + 1) : (nextPc w pc).toNat = n := by
  cases w with
  | wrap => rw [nextPc_wrap_toNat, hwrap rfl]
  | fault => rw [nextPc_fault_toNat hpc, hfault rfl]

/-- Settles O40: the advance gives `Next(pc0)`, and of the instructions only a jump in a legal mode writes PC after it. -/
theorem programCounterAdvances : Obligations.ProgramCounterAdvances := by
  intro s t n _ hpc h hwrap hfault
  have hadvance : s.advance.pc.toNat = n := nextPc_toNat hpc hwrap hfault
  obtain ⟨u, rfl, ⟨i, hi, hexec⟩ | ⟨_, _, -, rfl⟩⟩ := step_inside h hpc
  · obtain hkept | ⟨hlegal, hjump, ea, hea, htarget⟩ := exec_pc_or_jump hexec
    · exact .inl (by rw [State.emit_pc, hkept, hadvance])
    · obtain ⟨-, -, hadmits⟩ := classify_legal_iff.mp hlegal
      exact .inr ⟨i, ea, hi, hjump, hadmits, s.advance_resolve _ ▸ hea, by rw [State.emit_pc, htarget, zext13_toNat]⟩
  · exact .inl hadvance

/-! ### The run state -/

/-- The run state after a step in memory is the halt check's, on the mnemonic and the mode of the fetched word (R136). -/
theorem step_rs {s t : State} (h : step s = .next t) (hpc : s.pc.toNat ≤ 4095) :
    ∃ m, t.rs = haltCheck m (formOf (s.mem.read s.pc.toNat)).mode (classify m (formOf (s.mem.read s.pc.toNat)).mode) ∧
      ((∃ i, decode s.cfg.opTable (s.mem.read s.pc.toNat) = .instr i ∧ m = some i.mnemonic) ∨
       (∃ cat op, decode s.cfg.opTable (s.mem.read s.pc.toNat) = .undefinedOpcode cat op ∧ m = none)) := by
  obtain ⟨u, rfl, ⟨i, hi, hexec⟩ | ⟨cat, op, hu, rfl⟩⟩ := step_inside h hpc
  · obtain ⟨-, -, hrs⟩ := exec_frame hexec
    exact ⟨some i.mnemonic, (decode_instr hi).2 ▸ hrs, .inl ⟨i, hi, rfl⟩⟩
  · exact ⟨none, rfl, .inr ⟨cat, op, hu, rfl⟩⟩

/-- Settles O41: the halt check's conditions one after the other. -/
theorem haltReasonOrder : Obligations.HaltReasonOrder := by
  intro s t _ hpc h
  obtain ⟨m, hrs, hm⟩ := step_rs h hpc
  refine ⟨fun ⟨p, hp⟩ => hrs.trans (haltCheck_illegal m hp _), fun hmode => ⟨fun cat op hu => ?_, fun i hi => ?_⟩⟩
  · obtain ⟨i, hi, -⟩ | ⟨_, _, -, rfl⟩ := hm
    · exact nomatch hu.symm.trans hi
    · exact hrs.trans (haltCheck_undefined hmode _)
  · obtain ⟨j, hj, rfl⟩ | ⟨_, _, hu, -⟩ := hm
    · obtain rfl : i = j := Decoded.instr.inj (hi.symm.trans hj)
      rw [← (decode_instr hi).2] at hrs hmode
      refine ⟨fun hm => ?_, fun hm => ?_, fun hm hl => ?_, fun hm hl => ?_⟩
      · exact hrs.trans (hm ▸ haltCheck_halt hmode _)
      · exact hrs.trans (hm ▸ haltCheck_nop hmode)
      · obtain ⟨h1, h2⟩ : i.mnemonic ≠ .halt ∧ i.mnemonic ≠ .nop := by simpa using hm
        exact hrs.trans (haltCheck_rejected h1 h2 hl)
      · obtain ⟨h1, h2⟩ : i.mnemonic ≠ .halt ∧ i.mnemonic ≠ .nop := by simpa using hm
        have hlegal := classify_legal_iff.mpr ⟨h1, h2, hl⟩
        rw [hrs, hlegal, haltCheck_legal hlegal]
    · exact nomatch hi.symm.trans hu

/-- Settles O42: the fetch fault does not halt; an instruction that stops the engine writes RS only, as the halt check of an
undefined opcode does, so the advance and the record are all that is left. -/
theorem haltIsPrecise : Obligations.HaltIsPrecise := by
  intro s t r h hr
  obtain hle | hgt := le_or_gt s.pc.toNat 4095
  · obtain ⟨u, rfl, ⟨i, -, hexec⟩ | ⟨_, _, -, rfl⟩⟩ := step_inside h hle
    · have hstop : u.rs ≠ .running := fun hrun => nomatch hr.symm.trans hrun
      rw [exec_stopped hexec hstop]
      exact ⟨rfl, rfl, rfl, rfl, rfl, List.length_append⟩
    · exact ⟨rfl, rfl, rfl, rfl, rfl, List.length_append⟩
  · obtain rfl := step_beyond h hgt
    cases hr

/-! ### The record -/

section
variable {m : Option Mnemonic} {cat : BitVec 2} {f : Form}

/-- The first form of the display: an IMMEDIATE operand (R95). -/
theorem displayOf_immediate (h : f.mode = .immediate) (ea : Option Addr) : displayOf m cat f ea = .imm f.opnd :=
  if_pos h

/-- The second form of the display: category 0 or an undefined opcode (R95). -/
theorem displayOf_blank (himm : f.mode ≠ .immediate) (h : cat = 0 ∨ m = none) (ea : Option Addr) :
    displayOf m cat f ea = .blank :=
  (if_neg himm).trans (if_pos h)

/-- The third form of the display: no resolved address (R95). -/
theorem displayOf_error (himm : f.mode ≠ .immediate) (hcat : cat ≠ 0) (hm : m ≠ none) {ea : Option Addr} (hea : ea = none) :
    displayOf m cat f ea = .error := by
  subst hea
  exact (if_neg himm).trans (if_neg (not_or.mpr ⟨hcat, hm⟩))

/-- The last form of the display: the resolved address (R95). -/
theorem displayOf_addr (himm : f.mode ≠ .immediate) (hcat : cat ≠ 0) (hm : m ≠ none) {ea : Option Addr} {a : Addr}
    (hea : ea = some a) : displayOf m cat f ea = .addr a := by
  subst hea
  exact (if_neg himm).trans (if_neg (not_or.mpr ⟨hcat, hm⟩))

end

/-- A step in memory appends the record of its word and of the registers it left (R138, R139). -/
theorem step_trace {s t : State} (h : step s = .next t) (hpc : s.pc.toNat ≤ 4095) :
    t.trace = s.trace ++ [t.record s.pc (s.control (s.mem.read s.pc.toNat))] := by
  obtain ⟨u, rfl, hcases⟩ := step_inside h hpc
  have htrace : u.trace = s.trace := by
    obtain ⟨i, -, hexec⟩ | ⟨_, _, -, rfl⟩ := hcases
    · exact (exec_frame hexec).2.1
    · rfl
  rw [State.emit_trace, htrace]
  rfl

/-- Settles O43: the record is the Control record's of the fetched word with the final registers, and its display is taken form by
form. -/
theorem eachStepEmitsOneRecord : Obligations.EachStepEmitsOneRecord := by
  refine fun s t _ h => ⟨fun hgt => by rw [step_beyond h hgt, State.raiseFetchFault_trace], fun hpc => ?_⟩
  have haddr : (s.pc.setWidth 12).toNat = s.pc.toNat := by
    rw [BitVec.toNat_setWidth]
    omega
  exact ⟨_, step_trace h hpc, haddr, rfl, rfl, rfl, rfl, fun himm => displayOf_immediate himm _,
    fun himm => ⟨fun hblank => displayOf_blank himm hblank _, fun hcat hm =>
      ⟨fun p hp => displayOf_error himm hcat hm (s.resolve_illegal hp), fun ea hea => displayOf_addr himm hcat hm hea⟩⟩⟩

/-! ### Who writes memory and the registers -/

/-- Settles O44: of the instructions only a store or exchange in a legal mode writes memory, and a step writes none besides. -/
theorem onlyStoresWriteMemory : Obligations.OnlyStoresWriteMemory := by
  intro s t h hne
  obtain ⟨i, u, r, hi, hexec, rfl⟩ | ⟨-, -, hmem, -⟩ := step_executes_or_keeps h
  · obtain ⟨hlegal, hm, ea, v, hea, hmem⟩ := (exec_mem hexec).resolve_left hne
    obtain ⟨-, -, hadmits⟩ := classify_legal_iff.mp hlegal
    exact ⟨i, ea, v, hi, hm, hadmits, s.advance_resolve _ ▸ hea, hmem⟩
  · exact absurd hmem hne

/-- Settles O45: a register that differs after the step was written by the instruction the step executed. -/
theorem registerWriters : Obligations.RegisterWriters := by
  intro s t h
  obtain ⟨i, u, r, hi, hexec, rfl⟩ | ⟨hacc, hx, -, hcfg⟩ := step_executes_or_keeps h
  · obtain ⟨hcfg, -, -⟩ := exec_frame hexec
    exact ⟨fun hne => ⟨i, hi, (exec_acc hexec).resolve_left hne⟩,
      fun n hne => ⟨i, hi, (exec_x hexec n).resolve_left hne⟩, hcfg⟩
  · exact ⟨fun hne => absurd hacc hne, fun n hne => absurd (by rw [hx]) hne, hcfg⟩

/-! ### The run -/

/-- A run ends in a state that is not RUNNING, which more fuel does not change, or its fuel runs out in a RUNNING state (R140,
R142). -/
theorem run_ended_or_outOfFuel (n : Nat) : ∀ s : State,
    (∃ t, run n s = .ended t ∧ t.rs ≠ .running ∧ ∀ k, run (n + k) s = .ended t) ∨
    (∃ t, run n s = .outOfFuel t ∧ t.rs = .running) := by
  induction n with
  | zero =>
    intro s
    by_cases hrun : s.rs = .running
    · exact .inr ⟨s, run_zero hrun, hrun⟩
    · exact .inl ⟨s, run_ended hrun 0, hrun, fun k => run_ended hrun _⟩
  | succ n ih =>
    intro s
    by_cases hrun : s.rs = .running
    · obtain ⟨u, hu⟩ := step_next hrun
      have hrest : ∀ k, run (n + 1 + k) s = run (n + k) u := fun k => by
        rw [Nat.add_right_comm, run_succ hrun hu]
      simpa only [hrest, run_succ hrun hu] using ih u
    · exact .inl ⟨s, run_ended hrun _, hrun, fun k => run_ended hrun _⟩

/-- Settles O50: the run's own equations, and the two ways it can answer. -/
theorem runEndsForGood : Obligations.RunEndsForGood := by
  refine fun n s => ⟨fun t hrun ht => run_succ hrun ht n, run_zero, fun hne => run_ended hne n, ?_⟩
  obtain ⟨u, hu, hstop, hmore⟩ | ⟨u, hu, hrun⟩ := run_ended_or_outOfFuel n s <;> rw [hu]
  · exact ⟨fun t ht => RunResult.ended.inj ht ▸ ⟨hstop, step_not_running hstop, hmore⟩, nofun, nofun⟩
  · exact ⟨nofun, fun t ht => RunResult.outOfFuel.inj ht ▸ hrun, nofun⟩

end Sys2Proof.Machine
end

section
/-! SUPPORT. Proofs of the statements of 40_addressing.md on the indexed modes and on the operand values, as numbers. -/

namespace Sys2Proof.Machine

theorem State.resolve_indexedIndirect (s : State) {f : Form} (h : f.mode = .indexedIndirect) :
    s.resolve f = some (high12 (s.memRead (indexedSum s.cfg.eaMod f.opnd (s.x.get f.xsel)))) := by
  simp only [State.resolve, h]

/-- Settles O8: the address sum as a number, and the top 12 bits of the word at it. -/
theorem indexedModesResolve : Obligations.IndexedModesResolve := by
  intro f s k h4096 h4095
  have hk : k = eaModulus s.cfg.eaMod := by
    cases hmod : s.cfg.eaMod with
    | mod4096 => exact h4096 hmod
    | mod4095 => exact h4095 hmod
  subst hk
  refine ⟨fun hf => ⟨_, s.resolve_indexed hf, indexedSum_toNat _ _ _⟩, fun hf => ⟨_, s.resolve_indexedIndirect hf, ?_⟩⟩
  rw [high12_toNat, State.memRead, indexedSum_toNat]

/-- Settles O10: `Val` and `HighVal` of an IMMEDIATE operand and of a memory operand, the latter for each `MEMVAL`. -/
theorem operandValues : Obligations.OperandValues := by
  refine fun f s ea => ⟨fun himm => ⟨?_, s.highVal_immediate himm ea⟩, fun himm => ?_⟩
  · rw [s.val_immediate himm, zext24_toNat]
  · rw [s.val_memory himm, s.highVal_memory himm]
    refine ⟨fun hv => ?_, fun hv => ?_, fun hv => ?_, high12_toNat _⟩
    · rw [hv, reduceWord, zext24_toNat, low12_toNat, State.memRead]
    · rw [hv, reduceWord, zext24_toNat, high12_toNat, State.memRead]
    · rw [hv, reduceWord, State.memRead]

end Sys2Proof.Machine
end

section
/-! SUPPORT. Proofs of the statements of 20_memory.md and 70_reset_and_hazards.md on the load as a whole: the record types, the launch
of an empty object file, and the round trip over the model's own writer. -/

namespace Sys2Proof.Machine

/-! ### The reset state as a launch -/

/-- Settles O47: reset holds an empty memory, and an empty object file loads as one. -/
theorem resetIsTheEmptyLaunch : Obligations.ResetIsTheEmptyLaunch :=
  ⟨⟨rfl, rfl, rfl⟩, launch_ok Config.default (load_ok (override := none) (st := .initial) rfl (Nat.zero_le 4095))⟩

/-! ### The record types -/

section
variable {idx sum : Nat} {st : LoaderState} {L : List Char} {rest : List (List Char)}
  (hsum : checksum L = some sum) (hgood : sum % 256 = 0)
include hsum hgood

/-- An `01` line ends the load (R57). -/
theorem loadLines_end (hty : hexField L 7 2 = some 1) : loadLines idx st (L :: rest) = .ok st := by
  simp [loadLines, hsum, hgood, hty]

/-- An `02` line is a base-offset record (R58). -/
theorem loadLines_base (hty : hexField L 7 2 = some 2) :
    loadLines idx st (L :: rest) = (loadBase idx L st).bind (loadLines (idx + 1) · rest) := by
  simp only [loadLines, hsum, hgood, hty]
  cases loadBase idx L st <;> rfl

/-- A line of any other readable type is a data record (R59). -/
theorem loadLines_data {ty : Nat} (hty : hexField L 7 2 = some ty) (h1 : ty ≠ 1) (h2 : ty ≠ 2) :
    loadLines idx st (L :: rest) = (loadData idx L st).bind (loadLines (idx + 1) · rest) := by
  simp only [loadLines, hsum, hgood, hty]
  cases loadData idx L st <;> rfl

/-- A line without a readable type is refused (R61). -/
theorem loadLines_type_unreadable (hty : hexField L 7 2 = none) :
    loadLines idx st (L :: rest) = .error (.loadRefused (.line idx)) := by
  simp [loadLines, hsum, hgood, hty]

end

/-- Settles O53: the record types one by one. -/
theorem endAndBaseRecords : Obligations.EndAndBaseRecords := by
  refine ⟨fun idx st => rfl, fun idx st L rest sum hsum hgood => ⟨loadLines_end hsum hgood, fun v hty hv => ?_,
    fun hty hv => ?_, fun ty hty h1 h2 => ⟨fun st' hdata => ?_, fun e hdata => ?_⟩, loadLines_type_unreadable hsum hgood⟩⟩
  · rw [loadLines_base hsum hgood hty, loadBase, hv, Nat.mul_comm 16]
    rfl
  · rw [loadLines_base hsum hgood hty, loadBase, hv]
    rfl
  · rw [loadLines_data hsum hgood hty h1 h2, hdata]
    rfl
  · rw [loadLines_data hsum hgood hty h1 h2, hdata]
    rfl

/-! ### Hexadecimal text read back -/

/-- A hexadecimal digit written is read as its number (R53). -/
theorem hexDigit_hexChar : ∀ d < 16, hexDigit (hexChar d) = some d := by decide

@[simp] theorem length_hexText : ∀ n v : Nat, (hexText n v).length = n
  | 0, _ => rfl
  | n + 1, v => by simp [hexText, length_hexText n]

/-- The reader of `n + k` digits takes the `n` digits written for `v` as their number and goes on after them. -/
theorem hexDigits_hexText_append {k : Nat} : ∀ {n v : Nat} (acc : Nat) (cs : List Char), v < 16 ^ n →
    hexDigits (n + k) acc (hexText n v ++ cs) = hexDigits k (acc * 16 ^ n + v) cs
  | 0, v, acc, cs, hv => by
    obtain rfl : v = 0 := by simpa using hv
    simp [hexText]
  | n + 1, v, acc, cs, hv => by
    have hdiv : v / 16 < 16 ^ n := Nat.div_lt_of_lt_mul (by rwa [← Nat.pow_succ'])
    have hvalue : 16 * (acc * 16 ^ n + v / 16) + v % 16 = acc * 16 ^ (n + 1) + v := by
      rw [Nat.pow_succ, ← Nat.mul_assoc]
      omega
    rw [Nat.add_right_comm, Nat.add_assoc, hexText, List.append_assoc, hexDigits_hexText_append (k := k + 1) acc _ hdiv]
    simp only [List.cons_append, List.nil_append, hexDigits, hexDigit_hexChar _ (Nat.mod_lt v (by decide)), hvalue]

/-! ### Lists of pieces of one length -/

/-- Dropping whole pieces of a list made of pieces of one length. -/
theorem drop_flatMap_of_length {α β : Type} {f : α → List β} {n : Nat} (hf : ∀ a, (f a).length = n) :
    ∀ (j : Nat) (l : List α), (l.flatMap f).drop (n * j) = (l.drop j).flatMap f
  | 0, l => by simp
  | j + 1, [] => by simp
  | j + 1, a :: l => by
    rw [List.flatMap_cons, Nat.mul_succ, Nat.add_comm, ← hf a, List.drop_length_add_append, hf a, List.drop_succ_cons,
      drop_flatMap_of_length hf j l]

theorem length_flatMap_of_length {α β : Type} {f : α → List β} {n : Nat} (hf : ∀ a, (f a).length = n) (l : List α) :
    (l.flatMap f).length = n * l.length := by
  simp [List.length_flatMap, hf, Nat.mul_comm]

/-! ### Lines made of bytes -/

/-- A line that writes some bytes between its marker and its line feed. -/
def byteLine (bytes : List Nat) : List Char := ':' :: (bytes.flatMap (hexText 2) ++ ['\n'])

/-- A line made of bytes, from the field of byte `j` on. -/
theorem drop_byteLine {bytes : List Nat} {j : Nat} (hj : j ≤ bytes.length) :
    (byteLine bytes).drop (1 + 2 * j) = (bytes.drop j).flatMap (hexText 2) ++ ['\n'] := by
  have hle : 2 * j ≤ (bytes.flatMap (hexText 2)).length := by
    rw [length_flatMap_of_length (length_hexText 2)]
    omega
  rw [byteLine, Nat.add_comm, List.drop_succ_cons, List.drop_append_of_le_length hle,
    drop_flatMap_of_length (length_hexText 2)]

/-- The field of a byte reads as the byte (R53). -/
theorem hexField_byteLine {bytes : List Nat} {j b : Nat} (h : bytes[j]? = some b) (hb : b < 256) :
    hexField (byteLine bytes) (1 + 2 * j) 2 = some b := by
  obtain ⟨hj, rfl⟩ := List.getElem?_eq_some_iff.mp h
  rw [hexField, drop_byteLine hj.le, List.drop_eq_getElem_cons hj, List.flatMap_cons, List.append_assoc,
    hexDigits_hexText_append (k := 0) 0 _ hb, hexDigits, Nat.zero_mul, Nat.zero_add]

/-- Two bytes that follow each other read as one four-digit field. -/
theorem hexField_byteLine_four {bytes rest : List Nat} {j b c : Nat} (h : bytes.drop j = b :: c :: rest) (hb : b < 256)
    (hc : c < 256) : hexField (byteLine bytes) (1 + 2 * j) 4 = some (b * 256 + c) := by
  have hj : j ≤ bytes.length := by
    by_contra hgt
    simp [List.drop_eq_nil_of_le (Nat.le_of_not_le hgt)] at h
  rw [hexField, drop_byteLine hj, h, List.flatMap_cons, List.flatMap_cons, List.append_assoc, List.append_assoc,
    hexDigits_hexText_append (k := 2) 0 _ hb, hexDigits_hexText_append (k := 0) _ _ hc, hexDigits, Nat.zero_mul, Nat.zero_add]
  rfl

/-- The checksum of a line made of bytes is their sum (R55). -/
theorem checksum_byteLine {bytes : List Nat} (h : ∀ b ∈ bytes, b < 256) : checksum (byteLine bytes) = some bytes.sum := by
  refine checksumSumsTheWindows.1 _ bytes ?_ fun j b hb => hexField_byteLine hb (h b (List.mem_of_getElem? hb))
  simp only [byteLine, List.length_cons, List.length_append, length_flatMap_of_length (length_hexText 2), List.length_nil]
  omega

/-! ### The line of a data record -/

/-- The bytes of a data record's line, its checksum byte included (R54). -/
def lineBytes (addr : Nat) (ws : List Word) : List Nat :=
  recordBytes addr ws ++ [(256 - (recordBytes addr ws).sum % 256) % 256]

theorem dataLine_eq_byteLine (addr : Nat) (ws : List Word) : dataLine addr ws = byteLine (lineBytes addr ws) := by
  simp [dataLine, byteLine, lineBytes]

theorem wordBytes_lt {w : Word} : ∀ b ∈ wordBytes w, b < 256 := by
  have := w.isLt
  simp only [wordBytes, List.mem_cons, List.not_mem_nil, or_false]
  omega

@[simp] theorem length_wordBytes (w : Word) : (wordBytes w).length = 3 := rfl

theorem length_recordBytes (addr : Nat) (ws : List Word) : (recordBytes addr ws).length = 4 + 3 * ws.length := by
  rw [recordBytes, List.length_append, length_flatMap_of_length length_wordBytes]
  rfl

theorem length_dataLine (addr : Nat) (ws : List Word) : (dataLine addr ws).length = 12 + 6 * ws.length := by
  simp only [dataLine_eq_byteLine, byteLine, lineBytes, List.length_cons, List.length_append, List.length_nil,
    length_flatMap_of_length (length_hexText 2), length_recordBytes]
  omega

/-- Every byte of the line is one, for as many words as a byte count can tell. -/
theorem lineBytes_lt {addr : Nat} {ws : List Word} (hlen : ws.length ≤ 85) (haddr : addr ≤ 4096) :
    ∀ b ∈ lineBytes addr ws, b < 256 := by
  intro b hb
  simp only [lineBytes, recordBytes, List.mem_append, List.mem_cons, List.not_mem_nil, or_false, List.mem_flatMap] at hb
  obtain (hheader | ⟨w, -, hword⟩) | hsum := hb
  · omega
  · exact wordBytes_lt b hword
  · omega

/-- The line's checksum is valid (R55). -/
theorem lineBytes_sum (addr : Nat) (ws : List Word) : (lineBytes addr ws).sum % 256 = 0 := by
  rw [lineBytes, List.sum_append, List.sum_singleton]
  omega

/-- From the payload's group `i` on the bytes are those of the words from `i` on. -/
theorem drop_lineBytes {addr : Nat} {ws : List Word} {i : Nat} (hi : i < ws.length) :
    ∃ rest, (lineBytes addr ws).drop (4 + 3 * i) = wordBytes ws[i] ++ rest := by
  have hle : 3 * i ≤ (ws.flatMap wordBytes).length := by
    rw [length_flatMap_of_length length_wordBytes]
    omega
  have hpayload : (ws.flatMap wordBytes).drop (3 * i) = wordBytes ws[i] ++ (ws.drop (i + 1)).flatMap wordBytes := by
    rw [drop_flatMap_of_length length_wordBytes, List.drop_eq_getElem_cons hi, List.flatMap_cons]
  exact ⟨_, calc
    (lineBytes addr ws).drop (4 + 3 * i) = (ws.flatMap wordBytes ++ [_]).drop (3 * i) := by rw [Nat.add_comm]; rfl
    _ = wordBytes ws[i] ++ ((ws.drop (i + 1)).flatMap wordBytes ++ [_]) := by
      rw [List.drop_append_of_le_length hle, hpayload, List.append_assoc]⟩

/-- The line's checksum is valid, its type is 00, and its header reads as the byte count and the address (R54, R55). -/
theorem dataLine_header {addr : Nat} {ws : List Word} (hlen : ws.length ≤ 85) (haddr : addr ≤ 4096) :
    (∃ sum, checksum (dataLine addr ws) = some sum ∧ sum % 256 = 0) ∧
    hexField (dataLine addr ws) 7 2 = some 0 ∧ hexField (dataLine addr ws) 1 2 = some (3 * ws.length) ∧
    hexField (dataLine addr ws) 3 4 = some addr := by
  rw [dataLine_eq_byteLine]
  refine ⟨⟨_, checksum_byteLine (lineBytes_lt hlen haddr), lineBytes_sum addr ws⟩, ?_, ?_, ?_⟩
  · exact hexField_byteLine (j := 3) rfl (by decide)
  · exact hexField_byteLine (j := 0) rfl (by omega)
  · rw [hexField_byteLine_four (j := 1) rfl (by omega) (by omega), Nat.mul_comm, Nat.div_add_mod]

/-- The field of byte `k` of word `i` reads as that byte. -/
theorem hexField_dataLine_word {addr i k b : Nat} {ws : List Word} (hi : i < ws.length)
    (hb : (wordBytes ws[i])[k]? = some b) : hexField (dataLine addr ws) (1 + 2 * (4 + 3 * i + k)) 2 = some b := by
  obtain ⟨rest, hrest⟩ := drop_lineBytes (addr := addr) hi
  obtain ⟨hk, -⟩ := List.getElem?_eq_some_iff.mp hb
  rw [dataLine_eq_byteLine]
  refine hexField_byteLine ?_ (wordBytes_lt b (List.mem_of_getElem? hb))
  rw [← List.getElem?_drop, hrest, List.getElem?_append_left hk, hb]

/-- Group `i` of the line reads as word `i` (R59). -/
theorem groupWord_dataLine {addr i : Nat} {ws : List Word} (hi : i < ws.length) :
    groupWord (dataLine addr ws) i = some ws[i] := by
  have hbyte : ∀ k b, (wordBytes ws[i])[k]? = some b → hexField (dataLine addr ws) (9 + 2 * k + 6 * i) 2 = some b :=
    fun k b hb => by
      rw [show 9 + 2 * k + 6 * i = 1 + 2 * (4 + 3 * i + k) by omega]
      exact hexField_dataLine_word hi hb
  obtain ⟨w, hw, hval⟩ := groupWord_some (hbyte 0 _ rfl) (hbyte 1 _ rfl) (hbyte 2 _ rfl)
  have := ws[i].isLt
  obtain rfl : w = ws[i] := BitVec.eq_of_toNat_eq (by omega)
  exact hw

/-- Settles O57: the line has a valid checksum and is a data record, whose groups read as the words and are written to the empty
memory from the address on. -/
theorem loaderRoundTrip : Obligations.LoaderRoundTrip := by
  intro addr ws hlen hend
  have haddr : addr ≤ 4096 := by omega
  obtain ⟨⟨sum, hsum, hgood⟩, hty, hn, ha⟩ := dataLine_header hlen haddr
  have hbase : LoaderState.initial.base + addr = addr := Nat.zero_add addr
  obtain ⟨m, hok, -, hread, hother⟩ := writeGroups_ok (idx := 0) (target := addr) (n := 3 * ws.length / 3) (i := 0)
    (m := LoaderState.initial.mem) rfl fun j _ hj =>
      ⟨Option.isSome_of_eq_some (groupWord_dataLine (show j < ws.length by omega)), by omega⟩
  have hlines : loadLines 0 LoaderState.initial [dataLine addr ws] = .ok { LoaderState.initial with mem := m } := by
    rw [loadLines_data hsum hgood hty (by decide) (by decide),
      loadData_eq_map_writeGroups hn ha (by omega) (by rw [length_dataLine]; omega), hbase, hok]
    rfl
  refine ⟨m, load_ok hlines (Nat.zero_le 4095), fun i w hw => ?_, fun a houtside => hother a fun j _ hj => by omega⟩
  obtain ⟨hi, rfl⟩ := List.getElem?_eq_some_iff.mp hw
  exact hread i _ (Nat.zero_le i) (by omega) (groupWord_dataLine hi)

end Sys2Proof.Machine
end
